-- ==== Sys2Proof/Word.lean ====
section
/-! DEFINITION. The word types of the Mippits core (00_scope.md R12, R15; 10_state.md R20). -/

namespace Sys2Proof

/-- A 32-bit value: registers, HI, LO, the program counter, byte addresses and memory words (00_scope.md R12). -/
abbrev Word := BitVec 32

/-- One byte: of a program image, of the output stream, of a memory word (20_memory.md R54, R57). -/
abbrev Byte := BitVec 8

/-- A general register number, 0 to 31 (10_state.md R20: a 5-bit index). -/
abbrev Reg := Fin 32

/-- The 16-bit immediate field (30_encoding.md R81). -/
abbrev Imm16 := BitVec 16

end Sys2Proof
end

