-- ==== Sys2Proof/Config.lean ====
section
/-! DEFINITION. The fixed parameters of this hardware (00_scope.md R12). The spec leaves no value open, so there is no
free value here; what a launch may choose (image, load offset, initial registers, input) is the argument of
`Sys2Proof.Machine.launch`. -/

namespace Sys2Proof

/-- The value of `pc` that means "program has terminated" (10_state.md R28). -/
def Config.sentinel : Word := 0xFFFFFFFF#32

/-- The input port's byte address (20_memory.md R59). -/
def Config.inputAddr : Word := 0xFFFF0004#32

/-- The output port's byte address (20_memory.md R59). -/
def Config.outputAddr : Word := 0xFFFF000C#32

/-- The soft-breakpoint word, the encoding of `add $0,$0,$0` (30_encoding.md R95, 60_exceptions.md R224). -/
def Config.softBreakWord : Word := 0x00000020#32

/-- The register `jalr` writes its return address to (44_control.md R166). -/
def Config.linkReg : Reg := 31

/-- The reset value of the link register (10_state.md R32). -/
def Config.linkReset : Word := 0xFFFFFFFF#32

/-- What a byte of memory that nothing has written reads as (20_memory.md R52: memory is zero-initialized). -/
def Config.unlistedByte : Byte := 0#8

/-- The first load offset a launch takes if none is given (00_scope.md R13). -/
def Config.defaultLoadOffset : Word := 0#32

end Sys2Proof
end

