-- ==== Sys2Proof/Machine/Operands.lean ====
section
/-! DEFINITION. How numbers become words and operands become addresses (00_scope.md R15, 42_load_store.md R141,
44_control.md R161). -/

namespace Sys2Proof.Machine

/-- `norm(v) = v mod 2^32`, on any integer (00_scope.md R15). -/
def norm32 (v : Int) : Word := BitVec.ofInt 32 v

/-- A word as the unsigned integer it holds. -/
def unsigned (w : Word) : Int := (w.toNat : Int)

/-- `signed(v)`: `v` if `v < 2^31`, else `v - 2^32` (00_scope.md R15). -/
def signed (w : Word) : Int := if w.toNat < 2 ^ 31 then (w.toNat : Int) else (w.toNat : Int) - 2 ^ 32

/-- `signed16(v)`: `v` if `v < 2^15`, else `v - 2^16` (00_scope.md R15). -/
def signed16 (v : Imm16) : Int := if v.toNat < 2 ^ 15 then (v.toNat : Int) else (v.toNat : Int) - 2 ^ 16

/-- `sext_32(imm) = norm(signed16(imm))` (30_encoding.md R87). -/
def sext32 (v : Imm16) : Word := norm32 (signed16 v)

/-- A byte as a word, `zext_32` (00_scope.md R15, 20_memory.md R62). -/
def zext32 (c : Nat) : Word := BitVec.ofNat 32 c

/-- The address is a multiple of 4 (20_memory.md R55, R56). -/
def aligned (a : Word) : Bool := a.toNat % 4 == 0

/-- The index of the word a byte address lies in, `floor(a / 4)` (20_memory.md R51, 60_exceptions.md R223). -/
def wordIndex (a : Word) : Nat := a.toNat / 4

/-- `norm(a + 4)`: the fetch advance and the `lis` skip (10_state.md R29). -/
def plus4 (a : Word) : Word := norm32 (unsigned a + 4)

/-- `ea = norm(x[s] + signed16(imm))` (42_load_store.md R141). -/
def effectiveAddress (base : Word) (imm : Imm16) : Word := norm32 (unsigned base + signed16 imm)

/-- `target = norm(pc + 4 * signed16(imm))`, `pc` already advanced (44_control.md R161). -/
def branchTarget (pc : Word) (imm : Imm16) : Word := norm32 (unsigned pc + 4 * signed16 imm)

end Sys2Proof.Machine
end

