-- ==== Sys2Proof/Machine/Alu.lean ====
section
/-! DEFINITION. The adder, the multiplier and the divider (00_scope.md R8): the exact integer result, then the narrowing
the rule gives. -/

namespace Sys2Proof.Machine

/-- `add32(a, b) = norm(a + b)` (40_arithmetic.md R110). -/
def add32 (a b : Word) : Word := norm32 (unsigned a + unsigned b)

/-- `sub32(a, b) = norm(a - b)` (40_arithmetic.md R110). -/
def sub32 (a b : Word) : Word := norm32 (unsigned a - unsigned b)

/-- `mul64s`: the two's-complement 64-bit product (41_multiply_divide.md R120). -/
def mul64s (a b : Word) : BitVec 64 := BitVec.ofInt 64 (signed a * signed b)

/-- `mul64u`: the unsigned 64-bit product (41_multiply_divide.md R120). -/
def mul64u (a b : Word) : BitVec 64 := BitVec.ofInt 64 (unsigned a * unsigned b)

/-- `product[63:32]` (41_multiply_divide.md R120). -/
def highHalf (p : BitVec 64) : Word := p.extractLsb' 32 32

/-- `product[31:0]` (41_multiply_divide.md R120). -/
def lowHalf (p : BitVec 64) : Word := p.extractLsb' 0 32

/-- A quotient and a remainder. -/
structure QuotRem where
  quotient : Word
  remainder : Word
deriving DecidableEq, Repr

/-- `divmod_s`: truncated toward zero, the remainder with the dividend's sign; the divisor is not 0
(41_multiply_divide.md R121). -/
def divmodS (a b : Word) : QuotRem :=
  ⟨norm32 ((signed a).tdiv (signed b)), norm32 ((signed a).tmod (signed b))⟩

/-- `divmod_u`; the divisor is not 0 (41_multiply_divide.md R121). -/
def divmodU (a b : Word) : QuotRem :=
  ⟨norm32 ((unsigned a).tdiv (unsigned b)), norm32 ((unsigned a).tmod (unsigned b))⟩

end Sys2Proof.Machine
end

