-- ==== Sys2Proof/Syntax.lean ====
section
/-! DEFINITION. The instructions of the Mippits core, one constructor per row of the opcode table. -/

namespace Sys2Proof

/-- The seventeen instructions (00_scope.md R2), with the operand fields of 30_encoding.md R82 to R86 in the assembler's
order (R98). `lis` names its register only: its literal is the following memory word, which the machine reads when it
executes the instruction (42_load_store.md R140) and the decoder never sees (00_scope.md R6). -/
inductive Instr where
  /-- `add $d, $s, $t` (40_arithmetic.md R111). -/
  | add (d s t : Reg)
  /-- `sub $d, $s, $t` (40_arithmetic.md R112). -/
  | sub (d s t : Reg)
  /-- `mult $s, $t` (41_multiply_divide.md R122). -/
  | mult (s t : Reg)
  /-- `multu $s, $t` (41_multiply_divide.md R123). -/
  | multu (s t : Reg)
  /-- `div $s, $t` (41_multiply_divide.md R124). -/
  | div (s t : Reg)
  /-- `divu $s, $t` (41_multiply_divide.md R125). -/
  | divu (s t : Reg)
  /-- `mfhi $d` (41_multiply_divide.md R126). -/
  | mfhi (d : Reg)
  /-- `mflo $d` (41_multiply_divide.md R127). -/
  | mflo (d : Reg)
  /-- `lis $d`, followed by `.word i` (42_load_store.md R140). -/
  | lis (d : Reg)
  /-- `lw $t, i($s)` (42_load_store.md R142). -/
  | lw (t : Reg) (imm : Imm16) (s : Reg)
  /-- `sw $t, i($s)` (42_load_store.md R143). -/
  | sw (t : Reg) (imm : Imm16) (s : Reg)
  /-- `slt $d, $s, $t` (43_compare.md R150). -/
  | slt (d s t : Reg)
  /-- `sltu $d, $s, $t` (43_compare.md R151). -/
  | sltu (d s t : Reg)
  /-- `beq $s, $t, i` (44_control.md R162). -/
  | beq (s t : Reg) (imm : Imm16)
  /-- `bne $s, $t, i` (44_control.md R163). -/
  | bne (s t : Reg) (imm : Imm16)
  /-- `jr $s` (44_control.md R165). -/
  | jr (s : Reg)
  /-- `jalr $s` (44_control.md R166). -/
  | jalr (s : Reg)
deriving DecidableEq, Repr

end Sys2Proof
end

