-- ==== Sys2Proof/Decode.lean ====
section
/-! DEFINITION. The decoder (30_encoding.md R80 to R94), total on every word, the encoder written from the formats R82 to
R86, and the two readings of bytes the host and the disassembler use (R97, R99). -/

namespace Sys2Proof

/-! ## Fields (30_encoding.md R81) -/

/-- The 5-bit register field whose lowest bit is `lo`. -/
def regField (w : Word) (lo : Nat) : Reg := ⟨(w.extractLsb' lo 5).toNat, (w.extractLsb' lo 5).isLt⟩

/-- Field `s`, bits 25..21. -/
def fieldS (w : Word) : Reg := regField w 21

/-- Field `t`, bits 20..16. -/
def fieldT (w : Word) : Reg := regField w 16

/-- Field `d`, bits 15..11. -/
def fieldD (w : Word) : Reg := regField w 11

/-- Field `imm`, bits 15..0. -/
def fieldImm (w : Word) : Imm16 := w.extractLsb' 0 16

/-! ## The decoder -/

/-- One row of the table of 30_encoding.md R91: the word is this instruction iff `w AND mask = bits`; `build` reads the
operand fields. -/
structure Row where
  mask : Word
  bits : Word
  build : Word → Instr

/-- `w AND mask = bits`. -/
def Row.accepts (r : Row) (w : Word) : Bool := w &&& r.mask == r.bits

/-- The rows of format R3 (30_encoding.md R82). -/
def rowsR3 : List Row :=
  [⟨0xFC0007FF#32, 0x00000020#32, fun w => .add (fieldD w) (fieldS w) (fieldT w)⟩,
   ⟨0xFC0007FF#32, 0x00000022#32, fun w => .sub (fieldD w) (fieldS w) (fieldT w)⟩,
   ⟨0xFC0007FF#32, 0x0000002A#32, fun w => .slt (fieldD w) (fieldS w) (fieldT w)⟩,
   ⟨0xFC0007FF#32, 0x0000002B#32, fun w => .sltu (fieldD w) (fieldS w) (fieldT w)⟩]

/-- The rows of format R2 (30_encoding.md R83). -/
def rowsR2 : List Row :=
  [⟨0xFC00FFFF#32, 0x00000018#32, fun w => .mult (fieldS w) (fieldT w)⟩,
   ⟨0xFC00FFFF#32, 0x00000019#32, fun w => .multu (fieldS w) (fieldT w)⟩,
   ⟨0xFC00FFFF#32, 0x0000001A#32, fun w => .div (fieldS w) (fieldT w)⟩,
   ⟨0xFC00FFFF#32, 0x0000001B#32, fun w => .divu (fieldS w) (fieldT w)⟩]

/-- The rows of formats R1d and R1s (30_encoding.md R84, R85). -/
def rowsR1 : List Row :=
  [⟨0xFFFF07FF#32, 0x00000010#32, fun w => .mfhi (fieldD w)⟩,
   ⟨0xFFFF07FF#32, 0x00000012#32, fun w => .mflo (fieldD w)⟩,
   ⟨0xFFFF07FF#32, 0x00000014#32, fun w => .lis (fieldD w)⟩,
   ⟨0xFC1FFFFF#32, 0x00000008#32, fun w => .jr (fieldS w)⟩,
   ⟨0xFC1FFFFF#32, 0x00000009#32, fun w => .jalr (fieldS w)⟩]

/-- The rows of format I (30_encoding.md R86). -/
def rowsI : List Row :=
  [⟨0xFC000000#32, 0x8C000000#32, fun w => .lw (fieldT w) (fieldImm w) (fieldS w)⟩,
   ⟨0xFC000000#32, 0xAC000000#32, fun w => .sw (fieldT w) (fieldImm w) (fieldS w)⟩,
   ⟨0xFC000000#32, 0x10000000#32, fun w => .beq (fieldS w) (fieldT w) (fieldImm w)⟩,
   ⟨0xFC000000#32, 0x14000000#32, fun w => .bne (fieldS w) (fieldT w) (fieldImm w)⟩]

/-- The seventeen rows of 30_encoding.md R91. No word is accepted by two of them (R92), so their order is immaterial. -/
def rows : List Row := rowsR3 ++ rowsR2 ++ rowsR1 ++ rowsI

/-- The decoder: the instruction of the row that accepts the word, or `none` for a decode failure (30_encoding.md R91 to
R94). The machine's fault record carries the offending word (R93). -/
def decode (w : Word) : Option Instr := (rows.find? (·.accepts w)).map (·.build w)

/-! ## The encoder -/

/-- A register number as a 5-bit field. -/
def regBits (r : Reg) : BitVec 5 := BitVec.ofNat 5 r.val

/-- Format R3 (30_encoding.md R82). -/
def encodeR3 (fn : BitVec 6) (d s t : Reg) : Word := 0#6 ++ regBits s ++ regBits t ++ regBits d ++ 0#5 ++ fn

/-- Format R2 (30_encoding.md R83). -/
def encodeR2 (fn : BitVec 6) (s t : Reg) : Word := 0#6 ++ regBits s ++ regBits t ++ 0#5 ++ 0#5 ++ fn

/-- Format R1d (30_encoding.md R84). -/
def encodeR1d (fn : BitVec 6) (d : Reg) : Word := 0#6 ++ 0#5 ++ 0#5 ++ regBits d ++ 0#5 ++ fn

/-- Format R1s (30_encoding.md R85). -/
def encodeR1s (fn : BitVec 6) (s : Reg) : Word := 0#6 ++ regBits s ++ 0#5 ++ 0#5 ++ 0#5 ++ fn

/-- Format I (30_encoding.md R86). -/
def encodeI (op : BitVec 6) (s t : Reg) (imm : Imm16) : Word := op ++ regBits s ++ regBits t ++ imm

/-- The word of an instruction: the formats R82 to R86 with the opcode and function numbers of R89 and R90. -/
def encode : Instr → Word
  | .add d s t => encodeR3 0x20#6 d s t
  | .sub d s t => encodeR3 0x22#6 d s t
  | .mult s t => encodeR2 0x18#6 s t
  | .multu s t => encodeR2 0x19#6 s t
  | .div s t => encodeR2 0x1A#6 s t
  | .divu s t => encodeR2 0x1B#6 s t
  | .mfhi d => encodeR1d 0x10#6 d
  | .mflo d => encodeR1d 0x12#6 d
  | .lis d => encodeR1d 0x14#6 d
  | .lw t imm s => encodeI 0x23#6 s t imm
  | .sw t imm s => encodeI 0x2B#6 s t imm
  | .slt d s t => encodeR3 0x2A#6 d s t
  | .sltu d s t => encodeR3 0x2B#6 d s t
  | .beq s t imm => encodeI 0x04#6 s t imm
  | .bne s t imm => encodeI 0x05#6 s t imm
  | .jr s => encodeR1s 0x08#6 s
  | .jalr s => encodeR1s 0x09#6 s

/-- How many words the instruction occupies: two for `lis`, one otherwise (30_encoding.md R97). -/
def Instr.lengthWords : Instr → Nat
  | .add _ _ _ => 1
  | .sub _ _ _ => 1
  | .mult _ _ => 1
  | .multu _ _ => 1
  | .div _ _ => 1
  | .divu _ _ => 1
  | .mfhi _ => 1
  | .mflo _ => 1
  | .lis _ => 2
  | .lw _ _ _ => 1
  | .sw _ _ _ => 1
  | .slt _ _ _ => 1
  | .sltu _ _ _ => 1
  | .beq _ _ _ => 1
  | .bne _ _ _ => 1
  | .jr _ => 1
  | .jalr _ => 1

/-! ## Bytes and words -/

/-- A word from its four bytes, the first most significant (70_reset_and_hazards.md R241; the byte order of a word of
memory is the model's, notes/assumptions/1.md). -/
def wordOfBytes (b0 b1 b2 b3 : Byte) : Word := b0 ++ b1 ++ b2 ++ b3

/-- Byte `k` of a word, counted from the most significant. -/
def byteOfWord (w : Word) (k : Nat) : Byte := w.extractLsb' (24 - 8 * k) 8

/-- The four bytes of a word, the most significant first. -/
def bytesOfWord (w : Word) : List Byte := [byteOfWord w 0, byteOfWord w 1, byteOfWord w 2, byteOfWord w 3]

/-- The decoder on bytes as they lie in memory: it reads the first word and nothing else; fewer than four bytes hold no
instruction. -/
def decodeBytes : List Byte → Option Instr
  | b0 :: b1 :: b2 :: b3 :: _ => decode (wordOfBytes b0 b1 b2 b3)
  | _ => none

/-- The first and second word of an instruction of `nbits` bits numbered as spec/opcode_table.json numbers them: bits
31..0 are the first word, bits 63..32 the literal of a `lis`; bits at and above `nbits` are 0. -/
def tableWords (nbits w : Nat) : Word × Word :=
  let v := w % 2 ^ nbits
  (BitVec.ofNat 32 v, BitVec.ofNat 32 (v / 2 ^ 32))

/-- The instruction the decoder reads from a table word laid out as memory holds it. -/
def decodeTableWord (nbits w : Nat) : Option Instr :=
  let ws := tableWords nbits w
  decodeBytes (bytesOfWord ws.1 ++ bytesOfWord ws.2)

end Sys2Proof
end

