-- ==== Sys2Proof/Machine/State.lean ====
section
/-! DEFINITION. Everything the spec gives the machine, as plain data: the core (10_state.md R32), the input provider's
answers (20_memory.md R63) and the debugger (60_exceptions.md R220), and the reasons a step can stop. -/

namespace Sys2Proof.Machine

/-- One answer of the input provider (20_memory.md R63): an integer character code, or failure (end of input included,
R62). -/
inductive InputAnswer where
  | code (c : Int)
  | fail
deriving DecidableEq, Repr

/-- What an access was for (60_exceptions.md R200, the `kind` of an AlignmentFault). -/
inductive AccessKind where
  | fetch
  | load
  | store
deriving DecidableEq, Repr

/-- The record of one of the spec's four faults (60_exceptions.md R200). A fault is taken as a NEXT state whose `status`
holds this record (R208); it is not a reason of type `Fault`. -/
inductive FaultRecord where
  /-- DecodeFault: the word and the address it was fetched from (R201). -/
  | decode (word addr : Word)
  /-- AlignmentFault: the misaligned address, and `cur`; for a fetch that is the previous `cur`
  (R200, R202; DEDUCED, notes/assumptions/12.md). -/
  | alignment (kind : AccessKind) (addr instr : Word)
  /-- IOFault: `cur` and the provider's answer (R203). -/
  | io (instr : Word) (reason : InputAnswer)
  /-- DivideByZeroFault: `cur` (R204). -/
  | divideByZero (instr : Word)
deriving DecidableEq, Repr

/-- The run status (10_state.md R34). -/
inductive Status where
  | running
  | terminated
  | faulted (record : FaultRecord)
deriving DecidableEq, Repr

/-- An argument of a debugger command as the debugger reads it: an integer in any base, or text that does not parse
(60_exceptions.md R223, R226). -/
inductive Arg where
  | num (n : Int)
  | unparsable
deriving DecidableEq, Repr

/-- The debugger's commands (60_exceptions.md R225 to R228). -/
inductive Command where
  /-- `continue` (R225). -/
  | resume
  /-- `step-into` (R225). -/
  | stepInto
  /-- `step-over` (R225). -/
  | stepOver
  /-- `break [address]`: toggle (R223, R225). -/
  | toggleBreak (addr : Option Arg)
  /-- `register reg value` (R226). -/
  | patchRegister (reg value : Arg)
  /-- `print [start [end]]` (R227). -/
  | print (start stop : Option Arg)
  /-- `write start` and the word values entered up to the empty entry (R227). -/
  | patchMemory (start : Arg) (entries : List Int)
  /-- `trace` (R228). -/
  | toggleTrace
  /-- `help` (R228). -/
  | help
  /-- `quit` (R228). -/
  | quit
  /-- Input that is no command (R228). -/
  | unrecognized
deriving DecidableEq, Repr

/-- The debugger's mode (60_exceptions.md R220: Running, or Paused); `ended` is a session left by `quit`
(R210, R228; DEDUCED, notes/assumptions/11.md). -/
inductive DebugMode where
  | running
  | paused
  | ended
deriving DecidableEq, Repr

/-- The debugger's state, read by no instruction (60_exceptions.md R220). -/
structure Debugger where
  /-- The Breakpoint Set: word indices, strictly rising, so that equal sets are equal lists. -/
  breakpoints : List Nat
  /-- The temporary step-over breakpoint, a word index (R225). -/
  tempBreak : Option Nat
  /-- The resume flag: the next fetch passes a breakpoint (R222). -/
  resumeFlag : Bool
  /-- The Tracing Flag (R228). -/
  tracing : Bool
  mode : DebugMode
  /-- The commands given and not yet read, the next first (R215; DESIGN CHOICE, notes/assumptions/8.md). -/
  commands : List Command
deriving DecidableEq, Repr

/-- Memory as (address, byte) cells in one canonical form, `Memory.wf`: addresses strictly rising and below 2^32, no byte
equal to what an unlisted address reads as. Each word is held big-endian (DESIGN CHOICE, notes/assumptions/1.md). -/
abbrev Memory := List Host.Cell

/-- The state of the machine. -/
structure State where
  /-- `x[0]` .. `x[31]` (10_state.md R20). `x[0]` holds what was last written to it (R22). -/
  regs : Vector Word 32
  /-- HI (10_state.md R24). -/
  hi : Word
  /-- LO (10_state.md R24). -/
  lo : Word
  /-- The program counter (10_state.md R25). -/
  pc : Word
  /-- The Current Offset (10_state.md R27). -/
  cur : Word
  /-- The word memory (20_memory.md R51). -/
  mem : Memory
  /-- The output stream, oldest byte first (10_state.md R35). -/
  out : List Byte
  /-- The input provider's answers not yet drawn, the next first (20_memory.md R63; notes/assumptions/4.md). -/
  input : List InputAnswer
  /-- The run status (10_state.md R34). -/
  status : Status
  /-- The debugger of the session; `none` is a non-interactive runner (60_exceptions.md R220, R229). -/
  debugger : Option Debugger
deriving DecidableEq, Repr

/-- Why a step answers no next state. Each is a machine that takes no step, as the spec says, and none is one of the
spec's four faults, which are next states (`FaultRecord`). All are safe: nothing can be proved of a state after them. -/
inductive Fault where
  /-- Raised by `step` when `status` is Terminated: "the core takes no further step" (10_state.md R34). Safe. -/
  | coreTerminated
  /-- Raised by `step` when `status` is Faulted: "the core takes no further step" (10_state.md R34). Safe. -/
  | coreFaulted (record : FaultRecord)
  /-- Raised by `lw` from the input port while the provider has no answer: "the core has no step (it is stuck, not
  faulted)" (20_memory.md R63). Safe: it goes on once the host has put an answer in `input`. -/
  | awaitingInput
  /-- Raised by `step` when the debugger is paused and has been given no command (60_exceptions.md R215). Safe. -/
  | awaitingCommand
  /-- Raised by `step` after `quit`: "no further execution" (60_exceptions.md R228). Safe. -/
  | sessionEnded
deriving DecidableEq, Repr

/-- Why an instruction has no meaning. -/
inductive Refusal where
  /-- Raised by `exec` for an instruction of the table that is not modelled. No arm uses it: every instruction has its
  meaning. Safe. -/
  | notModelled (mnemonic : String)
deriving DecidableEq, Repr

/-- The registers after reset: `x[0..30] = 0`, `x[31] = 0xFFFFFFFF` (10_state.md R32, 70_reset_and_hazards.md R240). -/
def resetRegs : Vector Word 32 := (Vector.replicate 32 0#32).set 31 Config.linkReset

/-- The machine right after reset (10_state.md R32, 70_reset_and_hazards.md R240 steps 1, 2 and 4), before an image is
loaded, at the default load offset and with no debugger (DESIGN CHOICE, notes/assumptions/7.md). `cur` is 0 by DESIGN
CHOICE (notes/assumptions/3.md); `input` is empty by DESIGN CHOICE (notes/assumptions/4.md). -/
def State.reset : State where
  regs := resetRegs
  hi := 0#32
  lo := 0#32
  pc := Config.defaultLoadOffset
  cur := 0#32
  mem := []
  out := []
  input := []
  status := .running
  debugger := none

end Sys2Proof.Machine
end

