-- ==== Sys2Proof/Machine/Ops.lean ====
section
/-! DEFINITION. The named operations of 00_scope.md R16 over registers, memory and the I/O ports, and taking a fault. -/

namespace Sys2Proof.Machine

/-- What a step or a meaning answers. -/
abbrev Result := Host.Outcome State Fault Refusal

/-- Goes on from a next state, and passes a stop through. -/
def onNext (o : Result) (f : State → Result) : Result :=
  match o with
  | .next s => f s
  | .fault r => .fault r
  | .refused r => .refused r

/-! ## Registers (10_state.md R20 to R24, 00_scope.md R7) -/

/-- The read port `x[i]`. -/
def State.reg (s : State) (r : Reg) : Word := s.regs[r.val]

/-- The write port `x[i] <- v`; a write to register 0 is not filtered (10_state.md R22). -/
def State.setReg (s : State) (r : Reg) (v : Word) : State := { s with regs := s.regs.set r.val v }

/-- `force0`: `x[0] <- 0` (10_state.md R22). -/
def State.force0 (s : State) : State := s.setReg 0 0#32

/-- `HI <- h; LO <- l` (10_state.md R24). -/
def State.setHiLo (s : State) (h l : Word) : State := { s with hi := h, lo := l }

/-- `pc <- target` (10_state.md R26: no check at the write). -/
def State.setPc (s : State) (target : Word) : State := { s with pc := target }

/-! ## Memory cells: the canonical form -/

/-- The byte at an address; an unlisted one reads as `Config.unlistedByte` (20_memory.md R52). -/
def Memory.readByte (m : Memory) (a : Nat) : Byte :=
  match m with
  | [] => Config.unlistedByte
  | c :: rest => if c.1 = a then c.2 else Memory.readByte rest a

/-- A cell put in front, unless its byte is what an unlisted address reads as. -/
def Memory.push (a : Nat) (b : Byte) (m : Memory) : Memory := if b = Config.unlistedByte then m else (a, b) :: m

/-- One byte written; the canonical form is kept. -/
def Memory.writeByte (m : Memory) (a : Nat) (b : Byte) : Memory :=
  match m with
  | [] => Memory.push a b []
  | c :: rest =>
    if a < c.1 then Memory.push a b (c :: rest)
    else if a = c.1 then Memory.push a b rest
    else c :: Memory.writeByte rest a b

/-- A cell of the canonical form: its address exists and its byte is worth listing. -/
def Memory.cellOk (c : Host.Cell) : Bool := decide (c.1 < 2 ^ 32) && decide (c.2 ≠ Config.unlistedByte)

/-- Addresses strictly rising. -/
def Memory.rising (m : Memory) : Bool :=
  match m with
  | [] => true
  | c :: rest => (rest.all fun c' => decide (c.1 < c'.1)) && Memory.rising rest

/-- The canonical form: equal memories are equal lists. -/
def Memory.wf (m : Memory) : Bool := m.all Memory.cellOk && Memory.rising m

/-! ## Words of memory (20_memory.md R53) -/

/-- The address of the first byte of the word a byte address lies in. -/
def wordBase (a : Word) : Nat := 4 * wordIndex a

/-- `MemRead(a, 4) = mem[a / 4]` (20_memory.md R53); big-endian in the cells (notes/assumptions/1.md). -/
def memRead (m : Memory) (a : Word) : Word :=
  wordOfBytes (m.readByte (wordBase a)) (m.readByte (wordBase a + 1)) (m.readByte (wordBase a + 2))
    (m.readByte (wordBase a + 3))

/-- `MemWrite(a, 4, v): mem[a / 4] <- v` (20_memory.md R53). -/
def memWrite (m : Memory) (a : Word) (v : Word) : Memory :=
  (((m.writeByte (wordBase a) (byteOfWord v 0)).writeByte (wordBase a + 1) (byteOfWord v 1)).writeByte
    (wordBase a + 2) (byteOfWord v 2)).writeByte (wordBase a + 3) (byteOfWord v 3)

/-- `MemRead` on the machine's memory. -/
def State.readWord (s : State) (a : Word) : Word := memRead s.mem a

/-- `MemWrite` on the machine's memory. -/
def State.writeWord (s : State) (a : Word) (v : Word) : State := { s with mem := memWrite s.mem a v }

/-! ## Taking a fault (60_exceptions.md R208, 10_state.md R36) -/

/-- The state a fault leaves: `status <- Faulted(record)` and nothing else; nothing is saved and control goes nowhere
(60_exceptions.md R208). What the step did before (10_state.md R33 steps 5 to 7) stays. There is no return from a fault
(R209). -/
def State.takeFault (s : State) (r : FaultRecord) : State := { s with status := .faulted r }

/-- `raise F(info)`: the fault is taken and the step ends (00_scope.md R16). -/
def raise (r : FaultRecord) (s : State) : Result := .next (s.takeFault r)

/-- The sequencer's normal end: `status <- Terminated; halt` (10_state.md R28, R33 step 1). -/
def State.terminate (s : State) : State := { s with status := .terminated }

/-- The spec's numbers of the fault kinds (60_exceptions.md R200). -/
def FaultRecord.kindCode : FaultRecord → Nat
  | .decode _ _ => 1
  | .alignment _ _ _ => 2
  | .io _ _ => 3
  | .divideByZero _ => 4

/-! ## The I/O decoder (20_memory.md R61 to R65, 00_scope.md R10) -/

/-- The direction of a data access. -/
inductive Direction where
  | load
  | store
deriving DecidableEq, Repr

/-- Where a data access goes. -/
inductive AccessTarget where
  | input
  | output
  | memory
deriving DecidableEq, Repr

/-- `classify(addr, dir)`: each port has one direction, everything else is memory (00_scope.md R10). -/
def classify (a : Word) (dir : Direction) : AccessTarget :=
  match dir with
  | .load => if a = Config.inputAddr then .input else .memory
  | .store => if a = Config.outputAddr then .output else .memory

/-- The byte of an answer that is a valid character code, 0 to 255 (20_memory.md R62). -/
def InputAnswer.byte? : InputAnswer → Option Nat
  | .code c => if 0 ≤ c ∧ c ≤ 255 then some c.toNat else none
  | .fail => none

/-- What a load came to: a value, a fault to raise, or an answer of the input provider to wait for. -/
inductive Loaded where
  | value (v : Word) (rest : State)
  | raises (record : FaultRecord) (rest : State)
  | waits
deriving DecidableEq, Repr

/-- `InputAccess()`: one answer drawn; an invalid one raises IOFault after it is consumed (20_memory.md R62,
60_exceptions.md R203); with no answer the core has no step (20_memory.md R63). -/
def inputAccess (s : State) : Loaded :=
  match s.input with
  | [] => .waits
  | r :: rest =>
    match r.byte? with
    | some c => .value (zext32 c) { s with input := rest }
    | none => .raises (.io s.cur r) { s with input := rest }

/-- `LoadWord(a)` (20_memory.md R61): alignment first, then the port, then memory. -/
def loadWord (a : Word) (s : State) : Loaded :=
  if aligned a then
    match classify a .load with
    | .input => inputAccess s
    | .output => .value (s.readWord a) s
    | .memory => .value (s.readWord a) s
  else .raises (.alignment .load a s.cur) s

/-- `OutputByte(v[7:0])`: appended to the output stream, memory untouched (20_memory.md R64). -/
def State.output (s : State) (v : Word) : State := { s with out := s.out ++ [byteOfWord v 3] }

/-- `StoreWord(a, v)` (20_memory.md R61): alignment first, then the port, then memory. -/
def storeWord (a : Word) (v : Word) (s : State) : Result :=
  if aligned a then
    match classify a .store with
    | .output => .next (s.output v)
    | .input => .next (s.writeWord a v)
    | .memory => .next (s.writeWord a v)
  else raise (.alignment .store a s.cur) s

/-! ## The common prefix of every instruction (10_state.md R33 steps 4 to 7) -/

/-- The word at `pc`, by plain memory (10_state.md R33 step 4, 20_memory.md R66). -/
def State.fetchWord (s : State) : Word := s.readWord s.pc

/-- `cur <- pc; pc <- norm(pc + 4); x[0] <- 0` (10_state.md R33 steps 5 to 7). -/
def State.beginInstr (s : State) : State := State.force0 { s with cur := s.pc, pc := plus4 s.pc }

end Sys2Proof.Machine
end

