-- ==== Sys2Proof/Machine/Arithmetic.lean ====
section
/-! DEFINITION. The execute phases of `add` and `sub` (40_arithmetic.md). -/

namespace Sys2Proof.Machine

/-- `x[d] <- norm(x[s] + x[t])` (40_arithmetic.md R111). -/
def execAdd (rd rs rt : Reg) (s : State) : Result := .next (s.setReg rd (add32 (s.reg rs) (s.reg rt)))

/-- `x[d] <- norm(x[s] - x[t])` (40_arithmetic.md R112). -/
def execSub (rd rs rt : Reg) (s : State) : Result := .next (s.setReg rd (sub32 (s.reg rs) (s.reg rt)))

end Sys2Proof.Machine
end

