-- ==== Sys2Proof/Machine/Flags.lean ====
section
/-! DEFINITION. The machine has no flags or condition codes (10_state.md R31): a comparison gives a word, which `slt` and
`sltu` write to a register, and branches compare two registers. This file holds those comparisons. -/

namespace Sys2Proof.Machine

/-- The word of a comparison's outcome: exactly 1 or 0 (43_compare.md R150, R151). -/
def truthWord (b : Bool) : Word := if b then 1#32 else 0#32

/-- `slt32`: the signed comparison (43_compare.md R150). -/
def slt32 (a b : Word) : Word := truthWord (decide (signed a < signed b))

/-- `sltu32`: the unsigned comparison (43_compare.md R151). -/
def sltu32 (a b : Word) : Word := truthWord (decide (unsigned a < unsigned b))

/-- The branches compare the 32-bit patterns (44_control.md R162, R163). -/
def sameWord (a b : Word) : Bool := a == b

end Sys2Proof.Machine
end

