-- ==== Sys2Proof/Machine/Compare.lean ====
section
/-! DEFINITION. The execute phases of `slt` and `sltu` (43_compare.md). -/

namespace Sys2Proof.Machine

/-- `x[d] <- (signed(x[s]) < signed(x[t])) ? 1 : 0` (43_compare.md R150). -/
def execSlt (rd rs rt : Reg) (s : State) : Result := .next (s.setReg rd (slt32 (s.reg rs) (s.reg rt)))

/-- `x[d] <- (x[s] < x[t]) ? 1 : 0`, unsigned (43_compare.md R151). -/
def execSltu (rd rs rt : Reg) (s : State) : Result := .next (s.setReg rd (sltu32 (s.reg rs) (s.reg rt)))

end Sys2Proof.Machine
end

