-- ==== Sys2Proof/Machine/Control.lean ====
section
/-! DEFINITION. The execute phases of the branches and jumps (44_control.md). There is no delay slot (R160). -/

namespace Sys2Proof.Machine

/-- `pc <- norm(pc + 4 * signed16(imm))` if taken, else `pc` stays (44_control.md R161). -/
def branchIf (taken : Bool) (imm : Imm16) (s : State) : Result :=
  .next (if taken then s.setPc (branchTarget s.pc imm) else s)

/-- Taken when the registers are equal (44_control.md R162). -/
def execBeq (rs rt : Reg) (imm : Imm16) (s : State) : Result := branchIf (sameWord (s.reg rs) (s.reg rt)) imm s

/-- Taken when the registers differ (44_control.md R163). -/
def execBne (rs rt : Reg) (imm : Imm16) (s : State) : Result := branchIf (!sameWord (s.reg rs) (s.reg rt)) imm s

/-- `pc <- x[s]`, unmasked and unchecked (44_control.md R164, R165). -/
def execJr (rs : Reg) (s : State) : Result := .next (s.setPc (s.reg rs))

/-- The target read first, then `x[31] <- pc`, then `pc <- target` (44_control.md R166, 10_state.md R37). -/
def execJalr (rs : Reg) (s : State) : Result := .next ((s.setReg Config.linkReg s.pc).setPc (s.reg rs))

end Sys2Proof.Machine
end

