-- ==== Sys2Proof/Machine/LoadStore.lean ====
section
/-! DEFINITION. The execute phases of `lis`, `lw` and `sw` (42_load_store.md). -/

namespace Sys2Proof.Machine

/-- The word at `pc` into `x[d]`, and `pc` past it (42_load_store.md R140); plain memory, no I/O decoder
(20_memory.md R66). -/
def execLis (rd : Reg) (s : State) : Result := .next ((s.setReg rd (s.readWord s.pc)).setPc (plus4 s.pc))

/-- `x[t] <- LoadWord(ea)` (42_load_store.md R142). -/
def execLw (rt : Reg) (imm : Imm16) (rs : Reg) (s : State) : Result :=
  match loadWord (effectiveAddress (s.reg rs) imm) s with
  | .value v s' => .next (s'.setReg rt v)
  | .raises r s' => raise r s'
  | .waits => .fault .awaitingInput

/-- `StoreWord(ea, x[t])` (42_load_store.md R143). -/
def execSw (rt : Reg) (imm : Imm16) (rs : Reg) (s : State) : Result :=
  storeWord (effectiveAddress (s.reg rs) imm) (s.reg rt) s

end Sys2Proof.Machine
end

