-- ==== Sys2Proof/Machine/MultiplyDivide.lean ====
section
/-! DEFINITION. The execute phases of the multiplies, the divides and the HI/LO moves (41_multiply_divide.md). -/

namespace Sys2Proof.Machine

/-- `HI <- product[63:32]; LO <- product[31:0]` (41_multiply_divide.md R120). -/
def writeProduct (p : BitVec 64) (s : State) : Result := .next (s.setHiLo (highHalf p) (lowHalf p))

/-- `LO <- quotient; HI <- remainder`, after the check of the divisor, which comes before HI or LO is written
(41_multiply_divide.md R121, R124; 60_exceptions.md R204). -/
def divideBy (divmod : Word → Word → QuotRem) (a b : Word) (s : State) : Result :=
  if b = 0#32 then raise (.divideByZero s.cur) s
  else .next (s.setHiLo (divmod a b).remainder (divmod a b).quotient)

/-- Signed multiply (41_multiply_divide.md R122). -/
def execMult (rs rt : Reg) (s : State) : Result := writeProduct (mul64s (s.reg rs) (s.reg rt)) s

/-- Unsigned multiply (41_multiply_divide.md R123). -/
def execMultu (rs rt : Reg) (s : State) : Result := writeProduct (mul64u (s.reg rs) (s.reg rt)) s

/-- Signed divide (41_multiply_divide.md R124). -/
def execDiv (rs rt : Reg) (s : State) : Result := divideBy divmodS (s.reg rs) (s.reg rt) s

/-- Unsigned divide (41_multiply_divide.md R125). -/
def execDivu (rs rt : Reg) (s : State) : Result := divideBy divmodU (s.reg rs) (s.reg rt) s

/-- `x[d] <- HI` (41_multiply_divide.md R126). -/
def execMfhi (rd : Reg) (s : State) : Result := .next (s.setReg rd s.hi)

/-- `x[d] <- LO` (41_multiply_divide.md R127). -/
def execMflo (rd : Reg) (s : State) : Result := .next (s.setReg rd s.lo)

end Sys2Proof.Machine
end

