-- ==== Sys2Proof/Machine/Cycle.lean ====
section
/-! DEFINITION. One step of the core alone (10_state.md R33), without the debugger's check of its step 2. -/

namespace Sys2Proof.Machine

/-- Steps 8 and 9 of 10_state.md R33 on a fetched word: decode, then execute, or raise DecodeFault (60_exceptions.md R201). -/
def decodeAndExecute (w : Word) (s : State) : Result :=
  match decode w with
  | some i => exec i s
  | none => raise (.decode w s.cur) s

/-- One step of the core while `status` is Running, in the order of 10_state.md R33: the sentinel (step 1), the fetch
alignment (step 3), the fetch (4), `cur`, `pc` and `x[0]` (5 to 7), decode (8), execute (9). -/
def cycle (s : State) : Result :=
  if s.pc = Config.sentinel then .next s.terminate
  else if aligned s.pc then decodeAndExecute s.fetchWord s.beginInstr
  else raise (.alignment .fetch s.pc s.cur) s

/-- The stop of a core whose run has ended (10_state.md R34); a running core takes its step. -/
def stepIfRunning (s : State) (go : State → Result) : Result :=
  match s.status with
  | .running => go s
  | .terminated => .fault .coreTerminated
  | .faulted r => .fault (.coreFaulted r)

/-- What a non-interactive runner reports at the end of the process: a non-zero status on a fault (60_exceptions.md R229);
`none` while the run goes on. -/
def Status.exitsNonZero? : Status → Option Bool
  | .running => none
  | .terminated => some false
  | .faulted _ => some true

end Sys2Proof.Machine
end

