-- ==== Sys2Proof/Machine/Debugger.lean ====
section
/-! DEFINITION. The debugger as the host of a session (60_exceptions.md R220 to R229): its breakpoint check before each
fetch, its commands, and who moves next. -/

namespace Sys2Proof.Machine

/-! ## Arguments (60_exceptions.md R223, R226) -/

/-- An address argument: an integer in 0..2^32-1; anything else is a CommandParseError. -/
def Arg.address? : Arg → Option Word
  | .num n => if 0 ≤ n ∧ n < 2 ^ 32 then some (norm32 n) else none
  | .unparsable => none

/-- A register argument: an integer in 0..31 (60_exceptions.md R226). -/
def Arg.reg? : Arg → Option Reg
  | .num n => if 0 ≤ n ∧ n < 32 then some (Fin.ofNat 32 n.toNat) else none
  | .unparsable => none

/-- A value argument: any integer, normalized (60_exceptions.md R226). -/
def Arg.value? : Arg → Option Word
  | .num n => some (norm32 n)
  | .unparsable => none

/-! ## The Breakpoint Set -/

/-- The set's canonical form: strictly rising word indices below 2^30. -/
def breakpointsOk (b : List Nat) : Bool :=
  match b with
  | [] => true
  | k :: rest => decide (k < 2 ^ 30) && (rest.all fun j => decide (k < j)) && breakpointsOk rest

/-- Adds an index to the set. -/
def addBreakpoint (k : Nat) (b : List Nat) : List Nat :=
  match b with
  | [] => [k]
  | j :: rest => if k < j then k :: j :: rest else if k = j then j :: rest else j :: addBreakpoint k rest

/-- Adds every index of a list to the set. -/
def addBreakpoints (ks : List Nat) (b : List Nat) : List Nat := ks.foldr addBreakpoint b

/-- Removes an index from the set. -/
def removeBreakpoint (k : Nat) (b : List Nat) : List Nat := b.filter (fun j => !(j == k))

/-- "toggles (adds if absent, removes if present)" (60_exceptions.md R225). -/
def toggleBreakpoint (k : Nat) (b : List Nat) : List Nat :=
  if b.contains k then removeBreakpoint k b else addBreakpoint k b

/-! ## Pausing and resuming (60_exceptions.md R221, R222, R225) -/

/-- Changes the debugger, if the session has one. -/
def State.withDebugger (f : Debugger → Debugger) (s : State) : State := { s with debugger := s.debugger.map f }

/-- Every pause clears the temporary breakpoint (60_exceptions.md R222, decision D23). -/
def Debugger.pause (d : Debugger) : Debugger := { d with mode := .paused, tempBreak := none }

/-- `continue` sets the resume flag and lets the core move (60_exceptions.md R225). -/
def Debugger.goOn (d : Debugger) : Debugger := { d with mode := .running, resumeFlag := true }

/-- The debugger pauses. -/
def State.pause (s : State) : State := s.withDebugger Debugger.pause

/-- The breakpoint test of 60_exceptions.md R222 at an aligned `pc`. -/
def Debugger.stopsAt (d : Debugger) (pc : Word) : Bool :=
  aligned pc && (d.breakpoints.contains (wordIndex pc) || d.tempBreak == some (wordIndex pc)) && !d.resumeFlag

/-- The `else` branch of 60_exceptions.md R222, which comes after the sentinel test: the resume flag is cleared.
At the sentinel the check is not reached and the flag stays (DEDUCED, notes/assumptions/17.md). -/
def State.passBreakpoint (s : State) : State :=
  if s.pc = Config.sentinel then s else s.withDebugger fun d => { d with resumeFlag := false }

/-- After a step that ended the run, by the sentinel or by a fault, the debugger is at its prompt (60_exceptions.md R208,
R221; DEDUCED, notes/assumptions/10.md). -/
def pauseIfEnded (s : State) : State := if s.status = .running then s else s.pause

/-- The core's move under a running debugger: sentinel test, breakpoint check, then the rest of the step
(10_state.md R33 steps 1 and 2, 60_exceptions.md R206, R222). -/
def coreMove (d : Debugger) (s : State) : Result :=
  if ¬ s.pc = Config.sentinel ∧ d.stopsAt s.pc then .next s.pause
  else onNext (cycle s.passBreakpoint) fun t => .next (pauseIfEnded t)

/-! ## Commands (60_exceptions.md R225 to R228) -/

/-- The word index of the instruction logically after the one at `pc`: past the literal if that is a `lis`
(60_exceptions.md R225). At a `pc` that is no multiple of 4 the word it lies in is read (DESIGN CHOICE,
notes/assumptions/16.md). -/
def State.stepOverIndex (s : State) : Nat :=
  match decode s.fetchWord with
  | some i => wordIndex (norm32 (unsigned s.pc + 4 * i.lengthWords))
  | none => wordIndex (plus4 s.pc)

/-- `break [address]`; with no argument, the current `pc` (60_exceptions.md R223, R225). -/
def State.toggleBreakAt (s : State) (a : Word) : State :=
  s.withDebugger fun d => { d with breakpoints := toggleBreakpoint (wordIndex a) d.breakpoints }

/-- `write start`: one word per entry, the address advancing by 4, by plain memory (60_exceptions.md R227,
20_memory.md R73). Past 0xFFFFFFFC the address wraps (DESIGN CHOICE, notes/assumptions/15.md). -/
def State.writeEntries (s : State) (a : Word) (entries : List Int) : State :=
  match entries with
  | [] => s
  | v :: rest => (s.writeWord a (norm32 v)).writeEntries (plus4 a) rest

/-- The words from `start` to `stop` inclusive, `n` of them left to list at most (60_exceptions.md R227). Beside each word
stands `start` plus a multiple of 4, not rounded down to the word's own address (DESIGN CHOICE,
notes/assumptions/24.md). -/
def State.wordsFrom (s : State) (a stop : Word) (n : Nat) : List (Word × Word) :=
  match n with
  | 0 => []
  | n + 1 => if wordIndex a ≤ wordIndex stop then (a, s.readWord a) :: s.wordsFrom (plus4 a) stop n else []

/-- What `print [start [end]]` shows: all 32 registers, and the words of the range if one is given
(60_exceptions.md R227); a range with a start alone is that one word (DEDUCED, notes/assumptions/18.md). `none` is a
CommandParseError. Nothing changes and no port is touched (20_memory.md R73). -/
def State.printed? (s : State) (start stop : Option Arg) : Option (List Word × List (Word × Word)) :=
  match start, stop with
  | none, _ => some (s.regs.toList, [])
  | some a, none => a.address?.map fun a => (s.regs.toList, s.wordsFrom a a 1)
  | some a, some b =>
    match a.address?, b.address? with
    | some a, some b => some (s.regs.toList, s.wordsFrom a b (wordIndex b + 1 - wordIndex a))
    | _, _ => none

/-- The state after a command that runs no instruction. A command whose arguments do not parse changes nothing
(60_exceptions.md R228). `continue`, `step-into` and `step-over` only let the core move, and do nothing once the run has
ended (R229). -/
def Command.apply (c : Command) (s : State) : State :=
  match c with
  | .resume => if s.status = .running then s.withDebugger Debugger.goOn else s
  | .stepInto => s
  | .stepOver =>
    if s.status = .running then s.withDebugger fun d => Debugger.goOn { d with tempBreak := some s.stepOverIndex } else s
  | .toggleBreak none => s.toggleBreakAt s.pc
  | .toggleBreak (some arg) =>
    match arg.address? with
    | some a => s.toggleBreakAt a
    | none => s
  | .patchRegister reg value =>
    match reg.reg?, value.value? with
    | some r, some v => s.setReg r v
    | _, _ => s
  | .print _ _ => s
  | .patchMemory start entries =>
    match start.address? with
    | some a => s.writeEntries a entries
    | none => s
  | .toggleTrace => s.withDebugger fun d => { d with tracing := !d.tracing }
  | .help => s
  | .quit => s.withDebugger fun d => { d with mode := .ended }
  | .unrecognized => s

/-- One command of a paused debugger. `step-into` runs one step of the core, ignoring breakpoints, and pauses again
(60_exceptions.md R225); every other command has the effect of `Command.apply`. -/
def runCommand (c : Command) (s : State) : Result :=
  if c = .stepInto ∧ s.status = .running then onNext (cycle s) fun t => .next t.pause else .next (c.apply s)

/-- The debugger's move: it reads its next command; with none given it waits (60_exceptions.md R215). -/
def commandMove (d : Debugger) (s : State) : Result :=
  match d.commands with
  | [] => .fault .awaitingCommand
  | c :: rest => runCommand c (s.withDebugger fun d => { d with commands := rest })

/-- One step of a session: with no debugger the core's step (60_exceptions.md R229); with one, its mode says whether the
core or the debugger moves (20_memory.md R68: they run in one control flow). -/
def sessionStep (s : State) : Result :=
  match s.debugger with
  | none => stepIfRunning s cycle
  | some d =>
    match d.mode with
    | .running => stepIfRunning s (coreMove d)
    | .paused => commandMove d s
    | .ended => .fault .sessionEnded

/-! ## The host's other moves -/

/-- The input provider answers (20_memory.md R63). -/
def State.provideInput (s : State) (answers : List InputAnswer) : State := { s with input := s.input ++ answers }

/-- Commands arrive at the debugger's prompt (60_exceptions.md R215). -/
def State.giveCommands (s : State) (cs : List Command) : State :=
  s.withDebugger fun d => { d with commands := d.commands ++ cs }

end Sys2Proof.Machine
end

