-- ==== Sys2Proof/Machine/Step.lean ====
section
/-! DEFINITION. The machine's step, and placing one instruction where it fetches. -/

namespace Sys2Proof.Machine

/-- One step of the machine (10_state.md R33; with a debugger, 60_exceptions.md R222 and R225). -/
def step (s : State) : Host.Outcome State Fault Refusal := sessionStep s

/-- `pc` where the next fetch can read: its low two bits cleared, so an aligned `pc` is kept. -/
def fetchAddress (pc : Word) : Word := norm32 (4 * (wordIndex pc : Int))

/-- The machine made ready to fetch at once: running, at an aligned `pc`, and past a breakpoint if a debugger is there. -/
def State.readyToFetch (s : State) : State :=
  { s.withDebugger Debugger.goOn with status := .running, pc := fetchAddress s.pc }

/-- The instruction's first word stored at `pc` and its second at `pc + 4` where the next step fetches them, and the
machine ready to fetch. From reset only memory changes. -/
def State.withFetchWord (s : State) (nbits w : Nat) : State :=
  let r := s.readyToFetch
  (r.writeWord (plus4 r.pc) (tableWords nbits w).2).writeWord r.pc (tableWords nbits w).1

end Sys2Proof.Machine
end

