-- ==== Sys2Proof/Machine/Disassemble.lean ====
section
/-! DEFINITION. The decoder's second consumer: disassembly of a word sequence (30_encoding.md R99) and the operand syntax
of R98. No part of it changes the machine. -/

namespace Sys2Proof.Machine

/-- One line of a disassembly (30_encoding.md R99). -/
inductive DisasmLine where
  | instruction (i : Instr)
  /-- A `.word` literal, printed verbatim after a `lis`. -/
  | literal (w : Word)
  /-- A word that does not decode; the scan goes on (decision D29). -/
  | undecodable (w : Word)
deriving DecidableEq, Repr

/-- The lines of a word sequence; `literalNext` says that the word before was a `lis`, so the next one is printed as a
literal and not decoded (30_encoding.md R99). A `lis` at the end of the sequence gives its own line only (DEDUCED,
notes/assumptions/19.md). -/
def disassembleFrom (literalNext : Bool) : List Word → List DisasmLine
  | [] => []
  | w :: rest =>
    if literalNext then .literal w :: disassembleFrom false rest
    else
      match decode w with
      | some i => .instruction i :: disassembleFrom (i.lengthWords == 2) rest
      | none => .undecodable w :: disassembleFrom false rest

/-- A whole buffer. -/
def disassemble (ws : List Word) : List DisasmLine := disassembleFrom false ws

/-- `$n` (00_scope.md R19). -/
def regText (r : Reg) : String := "$" ++ toString r.val

/-- The signed immediate in decimal. -/
def immText (imm : Imm16) : String := toString (signed16 imm)

/-- The assembler syntax of 30_encoding.md R98. -/
def instrText : Instr → String
  | .add d s t => "add " ++ regText d ++ ", " ++ regText s ++ ", " ++ regText t
  | .sub d s t => "sub " ++ regText d ++ ", " ++ regText s ++ ", " ++ regText t
  | .mult s t => "mult " ++ regText s ++ ", " ++ regText t
  | .multu s t => "multu " ++ regText s ++ ", " ++ regText t
  | .div s t => "div " ++ regText s ++ ", " ++ regText t
  | .divu s t => "divu " ++ regText s ++ ", " ++ regText t
  | .mfhi d => "mfhi " ++ regText d
  | .mflo d => "mflo " ++ regText d
  | .lis d => "lis " ++ regText d
  | .lw t imm s => "lw " ++ regText t ++ ", " ++ immText imm ++ "(" ++ regText s ++ ")"
  | .sw t imm s => "sw " ++ regText t ++ ", " ++ immText imm ++ "(" ++ regText s ++ ")"
  | .slt d s t => "slt " ++ regText d ++ ", " ++ regText s ++ ", " ++ regText t
  | .sltu d s t => "sltu " ++ regText d ++ ", " ++ regText s ++ ", " ++ regText t
  | .beq s t imm => "beq " ++ regText s ++ ", " ++ regText t ++ ", " ++ immText imm
  | .bne s t imm => "bne " ++ regText s ++ ", " ++ regText t ++ ", " ++ immText imm
  | .jr s => "jr " ++ regText s
  | .jalr s => "jalr " ++ regText s

end Sys2Proof.Machine
end

