-- ==== Sys2Proof/WellFormed.lean ====
section
/-! DEFINITION. What the host must check before a value enters the machine: operand numbers of an instruction, and the
program image and its load offset (70_reset_and_hazards.md R241, R242). The operand types are exact (a register number is
a `Fin 32`, an immediate 16 bits), so every term of `Instr` passes its check: `Sys2Proof.Laws.instr_wellFormed`. -/

namespace Sys2Proof

/-- A register number is 0 to 31 (00_scope.md R19, 10_state.md R20). -/
def regNumberOk (n : Nat) : Bool := decide (n < 32)

/-- An immediate operand is -32768 to 32767 (30_encoding.md R87). -/
def immediateOk (i : Int) : Bool := decide (-32768 ≤ i) && decide (i ≤ 32767)

/-- The register of a number, if it names one. -/
def regOfNumber? (n : Nat) : Option Reg := if h : n < 32 then some ⟨n, h⟩ else none

/-- The immediate field that holds an integer, if one does. -/
def immOfInt? (i : Int) : Option Imm16 := if immediateOk i then some (BitVec.ofInt 16 i) else none

/-- The register operands of an instruction. -/
def Instr.regs : Instr → List Reg
  | .add d s t => [d, s, t]
  | .sub d s t => [d, s, t]
  | .mult s t => [s, t]
  | .multu s t => [s, t]
  | .div s t => [s, t]
  | .divu s t => [s, t]
  | .mfhi d => [d]
  | .mflo d => [d]
  | .lis d => [d]
  | .lw t _ s => [t, s]
  | .sw t _ s => [t, s]
  | .slt d s t => [d, s, t]
  | .sltu d s t => [d, s, t]
  | .beq s t _ => [s, t]
  | .bne s t _ => [s, t]
  | .jr s => [s]
  | .jalr s => [s]

/-- The immediate operand of an instruction, if it has one. -/
def Instr.imm? : Instr → Option Imm16
  | .add _ _ _ => none
  | .sub _ _ _ => none
  | .mult _ _ => none
  | .multu _ _ => none
  | .div _ _ => none
  | .divu _ _ => none
  | .mfhi _ => none
  | .mflo _ => none
  | .lis _ => none
  | .lw _ imm _ => some imm
  | .sw _ imm _ => some imm
  | .slt _ _ _ => none
  | .sltu _ _ _ => none
  | .beq _ _ imm => some imm
  | .bne _ _ imm => some imm
  | .jr _ => none
  | .jalr _ => none

/-- Every operand number of the instruction is in its range. -/
def Instr.wellFormed (i : Instr) : Bool :=
  i.regs.all (fun r => regNumberOk r.val) && (i.imm?.toList.all fun m => immediateOk m.toInt)

/-- A load offset is a multiple of 4 (70_reset_and_hazards.md R241). -/
def loadOffsetOk (loadOffset : Word) : Bool := loadOffset.toNat % 4 == 0

/-- The image's last word lies at or below 0xFFFFFFFC (70_reset_and_hazards.md R242). -/
def imageFits (nWords : Nat) (loadOffset : Word) : Bool := decide (loadOffset.toNat + 4 * nWords ≤ 2 ^ 32)

/-- A binary image's length is a multiple of 4 bytes (70_reset_and_hazards.md R241). -/
def binaryLengthOk (bytes : List Byte) : Bool := bytes.length % 4 == 0

/-- A hex image's length is a multiple of 8 digits (70_reset_and_hazards.md R241). -/
def hexLengthOk (digits : List Char) : Bool := digits.length % 8 == 0

/-- An ASCII hex digit; both letter cases are taken (DESIGN CHOICE, notes/assumptions/14.md). -/
def isHexDigit (c : Char) : Bool :=
  (decide (48 ≤ c.toNat) && decide (c.toNat ≤ 57)) || (decide (97 ≤ c.toNat) && decide (c.toNat ≤ 102))
    || (decide (65 ≤ c.toNat) && decide (c.toNat ≤ 70))

/-- A hex image holds hex digits only (70_reset_and_hazards.md R242). -/
def hexDigitsOk (digits : List Char) : Bool := digits.all isHexDigit

end Sys2Proof
end

