-- ==== Sys2Proof/Machine/Load.lean ====
section
/-! DEFINITION. How a session starts: reading a program image, loading it, and the reset sequence of
70_reset_and_hazards.md R240 to R242. -/

namespace Sys2Proof.Machine

/-- LoadFormatError: "Fatal at load time; the session must not start" (70_reset_and_hazards.md R242). -/
inductive LoadFormatError where
  /-- The image's length is not a whole number of words. -/
  | badLength
  /-- A hex image holds a character that is no hex digit. -/
  | notHexDigit
  /-- The load offset is not a multiple of 4. -/
  | misalignedOffset
  /-- The image would run past 0xFFFFFFFC. -/
  | pastEnd
deriving DecidableEq, Repr

/-! ## Reading an image (70_reset_and_hazards.md R241) -/

/-- The value of a hex digit, 0 to 15 (of another character, 0: `hexImage` has refused it before). -/
def hexValue (c : Char) : BitVec 4 :=
  if c.toNat ≤ 57 then BitVec.ofNat 4 (c.toNat - 48)
  else if 97 ≤ c.toNat then BitVec.ofNat 4 (c.toNat - 87)
  else BitVec.ofNat 4 (c.toNat - 55)

/-- The words of a byte stream, big-endian; a last group of fewer than four bytes is dropped (the length is checked
before). -/
def wordsOfBytes : List Byte → List Word
  | b0 :: b1 :: b2 :: b3 :: rest => wordOfBytes b0 b1 b2 b3 :: wordsOfBytes rest
  | _ => []

/-- The bytes of a digit sequence, two digits a byte, the first the high half. -/
def bytesOfHex : List Char → List Byte
  | c0 :: c1 :: rest => (hexValue c0 ++ hexValue c1) :: bytesOfHex rest
  | _ => []

/-- A raw binary image (70_reset_and_hazards.md R241 (b)). -/
def binaryImage (bytes : List Byte) : Except LoadFormatError (List Word) :=
  if binaryLengthOk bytes then .ok (wordsOfBytes bytes) else .error .badLength

/-- A hex image (70_reset_and_hazards.md R241 (a), R242). -/
def hexImage (digits : List Char) : Except LoadFormatError (List Word) :=
  if hexDigitsOk digits then
    if hexLengthOk digits then .ok (wordsOfBytes (bytesOfHex digits)) else .error .badLength
  else .error .notHexDigit

/-! ## Loading -/

/-- Word `i` of the image at `loadOffset + 4*i`, by plain memory (70_reset_and_hazards.md R241). -/
def loadWords (m : Memory) (a : Word) (image : List Word) : Memory :=
  match image with
  | [] => m
  | w :: rest => loadWords (memWrite m a w) (plus4 a) rest

/-- The word indices of the image's soft-breakpoint words (60_exceptions.md R224). -/
def softBreakpoints (k : Nat) (image : List Word) : List Nat :=
  match image with
  | [] => []
  | w :: rest => if w = Config.softBreakWord then k :: softBreakpoints (k + 1) rest else softBreakpoints (k + 1) rest

/-- What a session with a debugger is started with: `--breakpoints` as byte addresses (60_exceptions.md R220, decision
D32), `--trace`, and the commands its user will give. -/
structure DebugOptions where
  breakpoints : List Word
  trace : Bool
  commands : List Command
deriving DecidableEq, Repr

/-- The launch arguments (00_scope.md R13). -/
structure Launch where
  image : List Word
  loadOffset : Word
  initRegs : List (Reg × Int)
  input : List InputAnswer
  debugOptions : Option DebugOptions
deriving DecidableEq, Repr

/-- `x[r] <- norm(v)` for each pair, as the `register` command does (70_reset_and_hazards.md R240 step 5). -/
def State.initRegs (s : State) (init : List (Reg × Int)) : State :=
  match init with
  | [] => s
  | (r, v) :: rest => (s.setReg r (norm32 v)).initRegs rest

/-- The debugger at session start: breakpoints seeded from the image and the command line, paused
(60_exceptions.md R220, R221, R224). -/
def startDebugger (image : List Word) (loadOffset : Word) (o : DebugOptions) : Debugger where
  breakpoints := addBreakpoints (softBreakpoints (wordIndex loadOffset) image) (addBreakpoints (o.breakpoints.map wordIndex) [])
  tempBreak := none
  resumeFlag := false
  tracing := o.trace
  mode := .paused
  commands := o.commands

/-- The reset sequence, the image's words known (70_reset_and_hazards.md R240 steps 1 to 6). -/
def startState (l : Launch) : State :=
  let s : State := { State.reset with
    mem := loadWords State.reset.mem l.loadOffset l.image, pc := l.loadOffset, input := l.input }
  { s.initRegs l.initRegs with debugger := l.debugOptions.map (startDebugger l.image l.loadOffset) }

/-- A session's start, or the LoadFormatError that keeps it from starting (70_reset_and_hazards.md R240, R242). -/
def launch (l : Launch) : Except LoadFormatError State :=
  if loadOffsetOk l.loadOffset then
    if imageFits l.image.length l.loadOffset then .ok (startState l) else .error .pastEnd
  else .error .misalignedOffset

end Sys2Proof.Machine
end

