-- ==== Sys2Proof/Safety.lean ====
section
/-! DEFINITION. The terms claims are stated in: who moves, what an instruction leaves unchanged, the invariants, and the
runs of the machine. -/

namespace Sys2Proof

/-- The register an instruction writes (10_state.md R21). -/
def Instr.dest? : Instr → Option Reg
  | .add d _ _ => some d
  | .sub d _ _ => some d
  | .mult _ _ => none
  | .multu _ _ => none
  | .div _ _ => none
  | .divu _ _ => none
  | .mfhi d => some d
  | .mflo d => some d
  | .lis d => some d
  | .lw t _ _ => some t
  | .sw _ _ _ => none
  | .slt d _ _ => some d
  | .sltu d _ _ => some d
  | .beq _ _ _ => none
  | .bne _ _ _ => none
  | .jr _ => none
  | .jalr _ => some 31

end Sys2Proof

namespace Sys2Proof.Machine

/-! ## Who moves -/

/-- The core is running and no debugger is attached (60_exceptions.md R229: a non-interactive runner). -/
abbrev State.RunsAlone (s : State) : Prop := s.status = .running ∧ s.debugger = none

/-- The core is running under the debugger `d`, and the core moves next (60_exceptions.md R220). -/
abbrev State.RunsUnder (s : State) (d : Debugger) : Prop :=
  s.status = .running ∧ s.debugger = some d ∧ d.mode = .running

/-- The debugger `d` is paused and its next command is `c` (60_exceptions.md R221). -/
abbrev State.ReadsCommand (s : State) (d : Debugger) (c : Command) (rest : List Command) : Prop :=
  s.debugger = some d ∧ d.mode = .paused ∧ d.commands = c :: rest

/-! ## Encodings -/

/-- The word with this value, read as a number with bit 0 least significant, decodes to the instruction. -/
abbrev EncodedBy (i : Instr) (n : Nat) : Prop := decode (BitVec.ofNat 32 n) = some i

/-- The bits `lo`, `lo + 1`, ... of a word, `width` of them, as a number (00_scope.md R14). -/
abbrev bitsAt (w : Word) (lo width : Nat) : Nat := w.toNat / 2 ^ lo % 2 ^ width

/-! ## What an instruction leaves unchanged -/

/-- Every general register but those listed. -/
def SameRegsBut (ds : List Reg) (s t : State) : Prop := ∀ r, r ∉ ds → t.reg r = s.reg r

/-- HI and LO. -/
def SameHiLo (s t : State) : Prop := t.hi = s.hi ∧ t.lo = s.lo

/-- Every byte of memory. -/
def SameMemory (s t : State) : Prop := ∀ a : Nat, t.mem.readByte a = s.mem.readByte a

/-- Every byte of memory outside the four bytes that start at `base`. -/
def SameMemoryBut (base : Nat) (s t : State) : Prop :=
  ∀ a : Nat, a < base ∨ base + 4 ≤ a → t.mem.readByte a = s.mem.readByte a

/-- The output stream and the input answers. -/
def SamePorts (s t : State) : Prop := t.out = s.out ∧ t.input = s.input

/-- The Current Offset and the debugger. -/
def SameHost (s t : State) : Prop := t.cur = s.cur ∧ t.debugger = s.debugger

/-- The frame of an instruction that writes the listed registers, perhaps `pc`, and nothing else; it raises no fault. -/
def OnlyRegs (ds : List Reg) (s t : State) : Prop :=
  SameRegsBut ds s t ∧ SameHiLo s t ∧ SameMemory s t ∧ SamePorts s t ∧ SameHost s t ∧ t.status = s.status

/-- The frame of an instruction that writes HI and LO and nothing else; it raises no fault. -/
def OnlyHiLo (s t : State) : Prop :=
  SameRegsBut [] s t ∧ SameMemory s t ∧ SamePorts s t ∧ SameHost s t ∧ t.status = s.status ∧ t.pc = s.pc

/-- Only `status` changes. -/
def OnlyStatus (s t : State) : Prop :=
  SameRegsBut [] s t ∧ SameHiLo s t ∧ SameMemory s t ∧ SamePorts s t ∧ SameHost s t ∧ t.pc = s.pc

/-- A register as the execute phase of the next instruction reads it: register 0 reads 0 (10_state.md R23 (a)). -/
def State.operand (s : State) (r : Reg) : Word := if r = 0 then 0#32 else s.reg r

/-! ## The invariant of the machine -/

/-- A fault record fits the state it left (60_exceptions.md R200, 10_state.md R36). -/
def FaultRecord.Fits (r : FaultRecord) (s : State) : Prop :=
  match r with
  | .decode w a => a = s.cur ∧ Sys2Proof.decode w = none ∧ s.pc = plus4 s.cur
  | .alignment .fetch a i => a = s.pc ∧ i = s.cur ∧ aligned a = false ∧ a ≠ Config.sentinel
  | .alignment _ a i => i = s.cur ∧ aligned a = false ∧ s.pc = plus4 s.cur
  | .io i reason => i = s.cur ∧ reason.byte? = none ∧ s.pc = plus4 s.cur
  | .divideByZero i => i = s.cur ∧ s.pc = plus4 s.cur

/-- What every step keeps: memory is canonical, the Current Offset is a multiple of 4, a Terminated core stands at the
sentinel, a fault record fits its state, and a debugger's breakpoints are a set of word indices. -/
structure State.Inv (s : State) : Prop where
  memory : s.mem.wf = true
  current : aligned s.cur = true
  ended : s.status = .terminated → s.pc = Config.sentinel
  fault : ∀ r, s.status = .faulted r → r.Fits s
  breakpoints : ∀ d, s.debugger = some d → breakpointsOk d.breakpoints = true
  tempBreak : ∀ d k, s.debugger = some d → d.tempBreak = some k → k < 2 ^ 30

/-- Register 0 is 0 at the sentinel and after a normal end (10_state.md R23 (c)). -/
def State.ZeroAtEnd (s : State) : Prop := s.pc = Config.sentinel ∨ s.status = .terminated → s.reg 0 = 0#32

/-! ## Runs -/

/-- The state `t` is reached from `s` by steps of the machine. -/
inductive Reaches (s : State) : State → Prop where
  | refl : Reaches s s
  | next {t u : State} : Reaches s t → step t = .next u → Reaches s u

/-- The core of a session, its debugger left out. -/
def State.core (s : State) : State := { s with debugger := none }

/-! ## Images -/

/-- The hex digit of a value, lower case. -/
def hexDigit (v : BitVec 4) : Char := if v.toNat < 10 then Char.ofNat (48 + v.toNat) else Char.ofNat (87 + v.toNat)

/-- The two hex digits of a byte, the high half first. -/
def hexOfByte (b : Byte) : List Char := [hexDigit (b.extractLsb' 4 4), hexDigit (b.extractLsb' 0 4)]

/-- The eight hex digits of a word, most significant first (70_reset_and_hazards.md R241). -/
def hexOfWord (w : Word) : List Char := (bytesOfWord w).flatMap hexOfByte

end Sys2Proof.Machine
end

