-- ==== Sys2Proof/Certificates/Slice0/Obligations.lean ====
section
/-! DEFINITION. The statements for the provers, from the numbered rules of spec/. -/

open Sys2Proof Sys2Proof.Machine

/-! ## Encoding (30_encoding.md) -/

/-- R82 to R86, R91: the decoder reads every operand back from the word the encoder writes. -/
def Obligations.DecodeOfEncode : Prop := ∀ i : Instr, decode (encode i) = some i

/-- R91, R92: a word that decodes is the encoding of what it decodes to, so no bit of it is dropped. -/
def Obligations.EncodeOfDecode : Prop := ∀ (w : Word) (i : Instr), decode w = some i → encode i = w

/-- R91: "`w` decodes as instruction `I` iff `(w AND mask_I) = match_I`", for each of the seventeen, with its operand
fields where R81 puts them. -/
def Obligations.DecodesIffMaskMatches : Prop :=
  ∀ (w : Word) (d s t : Reg) (imm : Imm16),
    (decode w = some (.add d s t) ↔ w &&& 0xFC0007FF#32 = 0x00000020#32
      ∧ s.val = bitsAt w 21 5 ∧ t.val = bitsAt w 16 5 ∧ d.val = bitsAt w 11 5) ∧
    (decode w = some (.sub d s t) ↔ w &&& 0xFC0007FF#32 = 0x00000022#32
      ∧ s.val = bitsAt w 21 5 ∧ t.val = bitsAt w 16 5 ∧ d.val = bitsAt w 11 5) ∧
    (decode w = some (.mult s t) ↔ w &&& 0xFC00FFFF#32 = 0x00000018#32
      ∧ s.val = bitsAt w 21 5 ∧ t.val = bitsAt w 16 5) ∧
    (decode w = some (.multu s t) ↔ w &&& 0xFC00FFFF#32 = 0x00000019#32
      ∧ s.val = bitsAt w 21 5 ∧ t.val = bitsAt w 16 5) ∧
    (decode w = some (.div s t) ↔ w &&& 0xFC00FFFF#32 = 0x0000001A#32
      ∧ s.val = bitsAt w 21 5 ∧ t.val = bitsAt w 16 5) ∧
    (decode w = some (.divu s t) ↔ w &&& 0xFC00FFFF#32 = 0x0000001B#32
      ∧ s.val = bitsAt w 21 5 ∧ t.val = bitsAt w 16 5) ∧
    (decode w = some (.mfhi d) ↔ w &&& 0xFFFF07FF#32 = 0x00000010#32 ∧ d.val = bitsAt w 11 5) ∧
    (decode w = some (.mflo d) ↔ w &&& 0xFFFF07FF#32 = 0x00000012#32 ∧ d.val = bitsAt w 11 5) ∧
    (decode w = some (.lis d) ↔ w &&& 0xFFFF07FF#32 = 0x00000014#32 ∧ d.val = bitsAt w 11 5) ∧
    (decode w = some (.lw t imm s) ↔ w &&& 0xFC000000#32 = 0x8C000000#32
      ∧ s.val = bitsAt w 21 5 ∧ t.val = bitsAt w 16 5 ∧ imm.toNat = bitsAt w 0 16) ∧
    (decode w = some (.sw t imm s) ↔ w &&& 0xFC000000#32 = 0xAC000000#32
      ∧ s.val = bitsAt w 21 5 ∧ t.val = bitsAt w 16 5 ∧ imm.toNat = bitsAt w 0 16) ∧
    (decode w = some (.slt d s t) ↔ w &&& 0xFC0007FF#32 = 0x0000002A#32
      ∧ s.val = bitsAt w 21 5 ∧ t.val = bitsAt w 16 5 ∧ d.val = bitsAt w 11 5) ∧
    (decode w = some (.sltu d s t) ↔ w &&& 0xFC0007FF#32 = 0x0000002B#32
      ∧ s.val = bitsAt w 21 5 ∧ t.val = bitsAt w 16 5 ∧ d.val = bitsAt w 11 5) ∧
    (decode w = some (.beq s t imm) ↔ w &&& 0xFC000000#32 = 0x10000000#32
      ∧ s.val = bitsAt w 21 5 ∧ t.val = bitsAt w 16 5 ∧ imm.toNat = bitsAt w 0 16) ∧
    (decode w = some (.bne s t imm) ↔ w &&& 0xFC000000#32 = 0x14000000#32
      ∧ s.val = bitsAt w 21 5 ∧ t.val = bitsAt w 16 5 ∧ imm.toNat = bitsAt w 0 16) ∧
    (decode w = some (.jr s) ↔ w &&& 0xFC1FFFFF#32 = 0x00000008#32 ∧ s.val = bitsAt w 21 5) ∧
    (decode w = some (.jalr s) ↔ w &&& 0xFC1FFFFF#32 = 0x00000009#32 ∧ s.val = bitsAt w 21 5)

/-- R92: no word matches two rows of the table, so the decoder gives the accepting row's instruction whatever the order,
and a decode failure where no row accepts. -/
def Obligations.NoWordMatchesTwoRows : Prop :=
  rows.length = 17 ∧
  (∀ (w : Word) (m n : Nat) (r q : Row), rows[m]? = some r → rows[n]? = some q → r.accepts w = true →
    q.accepts w = true → m = n) ∧
  (∀ (w : Word) (r : Row), r ∈ rows → r.accepts w = true → decode w = some (r.build w)) ∧
  (∀ w : Word, (∀ r ∈ rows, r.accepts w = false) → decode w = none)

/-- R89, R90, R94: a word decodes exactly when its opcode, function code and must-be-zero fields are those of an
instruction; every other word is illegal. -/
def Obligations.LegalWordsByFields : Prop :=
  ∀ w : Word, (decode w).isSome = true ↔
    (bitsAt w 26 6 = 0 ∧
      ((bitsAt w 0 6 ∈ [0x20, 0x22, 0x2A, 0x2B] ∧ bitsAt w 6 5 = 0) ∨
       (bitsAt w 0 6 ∈ [0x18, 0x19, 0x1A, 0x1B] ∧ bitsAt w 6 5 = 0 ∧ bitsAt w 11 5 = 0) ∨
       (bitsAt w 0 6 ∈ [0x10, 0x12, 0x14] ∧ bitsAt w 6 5 = 0 ∧ bitsAt w 16 5 = 0 ∧ bitsAt w 21 5 = 0) ∨
       (bitsAt w 0 6 ∈ [0x08, 0x09] ∧ bitsAt w 6 5 = 0 ∧ bitsAt w 11 5 = 0 ∧ bitsAt w 16 5 = 0))) ∨
    bitsAt w 26 6 ∈ [0x04, 0x05, 0x23, 0x2B]

/-- Words the spec prints with their instructions (95_test_vectors.md section 2.1 and Part 3), one or more per family,
and three it calls illegal. -/
def Obligations.PrintedWordsDecode : Prop :=
  decode 0x00221820#32 = some (.add 3 1 2) ∧ decode 0x00431022#32 = some (.sub 2 2 3) ∧
  decode 0x00220018#32 = some (.mult 1 2) ∧ decode 0x0022001A#32 = some (.div 1 2) ∧
  decode 0x00002010#32 = some (.mfhi 4) ∧ decode 0x00003014#32 = some (.lis 6) ∧
  decode 0x8FA70008#32 = some (.lw 7 8 29) ∧ decode 0xAFA7FFFC#32 = some (.sw 7 0xFFFC 29) ∧
  decode 0x0041382B#32 = some (.sltu 7 2 1) ∧ decode 0x1440FFFD#32 = some (.bne 2 0 0xFFFD) ∧
  decode 0x03E00008#32 = some (.jr 31) ∧ decode 0x01000009#32 = some (.jalr 8) ∧
  decode 0x00000000#32 = none ∧ decode 0x00221860#32 = none ∧ decode 0x0100F809#32 = none

/-! ## One step (10_state.md R33) -/

/-- R33: when the word at an aligned `pc` decodes to `i`, the step is `exec i` from the state whose `cur` is the old
`pc`, whose `pc` is 4 further, whose register 0 is 0, and whose rest is unchanged. -/
def Obligations.StepRunsDecodedInstruction : Prop :=
  ∀ (s : State) (i : Instr), s.RunsAlone → s.pc.toNat % 4 = 0 → decode s.fetchWord = some i →
    ∃ u : State, step s = exec i u ∧ u.cur = s.pc ∧ u.pc.toNat = (s.pc.toNat + 4) % 2 ^ 32 ∧ u.reg 0 = 0#32 ∧
      (∀ r : Reg, r ≠ 0 → u.reg r = s.reg r) ∧ u.hi = s.hi ∧ u.lo = s.lo ∧ u.mem = s.mem ∧ u.out = s.out ∧
      u.input = s.input ∧ u.status = s.status ∧ u.debugger = none

/-- R33, R222: the same under a running debugger that does not stop here; its resume flag is cleared, and a step that
ends the run leaves it paused (notes/assumptions/10.md). -/
def Obligations.DebuggedStepRunsDecodedInstruction : Prop :=
  ∀ (s : State) (d : Debugger) (i : Instr), s.RunsUnder d → s.pc.toNat % 4 = 0 → decode s.fetchWord = some i →
    (d.resumeFlag = true ∨ (s.pc.toNat / 4 ∉ d.breakpoints ∧ d.tempBreak ≠ some (s.pc.toNat / 4))) →
    step s = onNext (exec i { s.beginInstr with debugger := some { d with resumeFlag := false } })
      fun t => .next (if t.status = .running then t
        else { t with debugger := t.debugger.map fun e => { e with mode := .paused, tempBreak := none } })

/-- R28: reaching the sentinel ends the run, without a fetch: nothing but `status` changes, with no debugger; under a
running debugger, at or off a breakpoint, the same of the core. -/
def Obligations.SentinelTerminates : Prop :=
  (∀ s : State, s.RunsAlone → s.pc = 0xFFFFFFFF#32 → step s = .next { s with status := .terminated }) ∧
  (∀ (s : State) (d : Debugger), s.RunsUnder d → s.pc = 0xFFFFFFFF#32 →
    ∃ t, step s = .next t ∧ t.core = { s.core with status := .terminated })

/-- R202, R36: a `pc` that is no multiple of 4 and not the sentinel raises AlignmentFault (Fetch), and nothing but
`status` changes. The record's third component is the previous `cur` (DEDUCED, notes/assumptions/12.md). -/
def Obligations.MisalignedFetchFaults : Prop :=
  ∀ s : State, s.RunsAlone → s.pc.toNat % 4 ≠ 0 → s.pc ≠ 0xFFFFFFFF#32 →
    step s = .next { s with status := .faulted (.alignment .fetch s.pc s.cur) }

/-- R201: a word that decodes to nothing raises DecodeFault with the word and its address, after `cur <- pc`,
`pc <- norm(pc + 4)` and `x[0] <- 0`, and nothing else changes. -/
def Obligations.UndecodableWordFaults : Prop :=
  ∀ s : State, s.RunsAlone → s.pc.toNat % 4 = 0 → decode s.fetchWord = none →
    ∃ t, step s = .next t ∧ t.status = .faulted (.decode s.fetchWord s.pc) ∧ t.cur = s.pc ∧
      t.pc.toNat = (s.pc.toNat + 4) % 2 ^ 32 ∧ t.reg 0 = 0#32 ∧ SameRegsBut [0] s t ∧ SameHiLo s t ∧
      SameMemory s t ∧ SamePorts s t ∧ t.debugger = none

/-- R34: a core whose run has ended takes no step: without a debugger the machine has no next state, and with one no step
changes `status`, `pc`, `cur`, HI, LO, the output or the input. A run ends only at the sentinel or by a fault. -/
def Obligations.EndedCoreTakesNoStep : Prop :=
  (∀ s t : State, s.debugger = none → s.status ≠ .running → step s ≠ .next t) ∧
  (∀ s t : State, s.status ≠ .running → step s = .next t →
    t.status = s.status ∧ t.pc = s.pc ∧ t.cur = s.cur ∧ SameHiLo s t ∧ SamePorts s t) ∧
  (∀ s t : State, s.status = .running → step s = .next t →
    t.status = .running ∨ (t.status = .terminated ∧ s.pc = 0xFFFFFFFF#32) ∨ ∃ f, t.status = .faulted f)

/-- R30: `pc` after each instruction, from its address and the registers as the execute phase reads them. -/
def Obligations.PcAfterInstruction : Prop :=
  ∀ (s t : State) (i : Instr), s.RunsAlone → s.pc.toNat % 4 = 0 → decode s.fetchWord = some i → step s = .next t →
    match i with
    | .lis _ => t.pc = s.pc + 8#32
    | .beq a b imm =>
      t.pc = if s.operand a = s.operand b then s.pc + 4#32 + 4#32 * imm.signExtend 32 else s.pc + 4#32
    | .bne a b imm =>
      t.pc = if s.operand a = s.operand b then s.pc + 4#32 else s.pc + 4#32 + 4#32 * imm.signExtend 32
    | .jr a => t.pc = s.operand a
    | .jalr a => t.pc = s.operand a
    | .add _ _ _ => t.pc = s.pc + 4#32
    | .sub _ _ _ => t.pc = s.pc + 4#32
    | .mult _ _ => t.pc = s.pc + 4#32
    | .multu _ _ => t.pc = s.pc + 4#32
    | .div _ _ => t.pc = s.pc + 4#32
    | .divu _ _ => t.pc = s.pc + 4#32
    | .mfhi _ => t.pc = s.pc + 4#32
    | .mflo _ => t.pc = s.pc + 4#32
    | .lw _ _ _ => t.pc = s.pc + 4#32
    | .sw _ _ _ => t.pc = s.pc + 4#32
    | .slt _ _ _ => t.pc = s.pc + 4#32
    | .sltu _ _ _ => t.pc = s.pc + 4#32

/-! ## Arithmetic (40_arithmetic.md) -/

/-- R110: wrap-around with no overflow detection; the signed reading is the true signed sum where that fits 32 bits, and
differs from it by 2^32 where it does not. -/
def Obligations.AdderWraps : Prop :=
  ∀ a b : Word,
    (add32 a b).toNat = (a.toNat + b.toNat) % 2 ^ 32 ∧
    ((sub32 a b).toNat : Int) = ((a.toNat : Int) - b.toNat) % 2 ^ 32 ∧
    (-2 ^ 31 ≤ a.toInt + b.toInt ∧ a.toInt + b.toInt ≤ 2 ^ 31 - 1 → (add32 a b).toInt = a.toInt + b.toInt) ∧
    (¬ (-2 ^ 31 ≤ a.toInt + b.toInt ∧ a.toInt + b.toInt ≤ 2 ^ 31 - 1) →
      (add32 a b).toInt = a.toInt + b.toInt - 2 ^ 32 ∨ (add32 a b).toInt = a.toInt + b.toInt + 2 ^ 32)

/-- R111, R112: `add` and `sub`, for every destination, register 0 included (the write to it lands, R22). -/
def Obligations.AddSubWriteWrappedResult : Prop :=
  ∀ (d a b : Reg) (s : State),
    EncodedBy (.add d a b) (a.val * 2 ^ 21 + b.val * 2 ^ 16 + d.val * 2 ^ 11 + 0x20) ∧
    EncodedBy (.sub d a b) (a.val * 2 ^ 21 + b.val * 2 ^ 16 + d.val * 2 ^ 11 + 0x22) ∧
    (∃ t, exec (.add d a b) s = .next t ∧ (t.reg d).toNat = ((s.reg a).toNat + (s.reg b).toNat) % 2 ^ 32 ∧
      OnlyRegs [d] s t ∧ t.pc = s.pc) ∧
    (∃ t, exec (.sub d a b) s = .next t ∧
      ((t.reg d).toNat : Int) = (((s.reg a).toNat : Int) - (s.reg b).toNat) % 2 ^ 32 ∧
      OnlyRegs [d] s t ∧ t.pc = s.pc)

/-! ## Multiply, divide and the HI/LO moves (41_multiply_divide.md) -/

/-- R122, R123 (R120): HI:LO is the exact signed product for `mult`, the exact unsigned product for `multu`. -/
def Obligations.MultiplyWritesExactProduct : Prop :=
  ∀ (a b : Reg) (s : State),
    EncodedBy (.mult a b) (a.val * 2 ^ 21 + b.val * 2 ^ 16 + 0x18) ∧
    EncodedBy (.multu a b) (a.val * 2 ^ 21 + b.val * 2 ^ 16 + 0x19) ∧
    (∃ t, exec (.mult a b) s = .next t ∧ (t.hi ++ t.lo).toInt = (s.reg a).toInt * (s.reg b).toInt ∧ OnlyHiLo s t) ∧
    (∃ t, exec (.multu a b) s = .next t ∧
      t.hi.toNat * 2 ^ 32 + t.lo.toNat = (s.reg a).toNat * (s.reg b).toNat ∧ OnlyHiLo s t)

/-- R121, R124, R204: signed division. The dividend is quotient times divisor plus remainder, the remainder is smaller than
the divisor and has the dividend's sign (so the quotient is truncated toward zero), but for -2^31 / -1, which gives
0x80000000 and 0. A divisor of 0 raises DivideByZeroFault with `cur`, before HI or LO is written. -/
def Obligations.DivTruncatesOrFaults : Prop :=
  ∀ (a b : Reg) (s : State),
    EncodedBy (.div a b) (a.val * 2 ^ 21 + b.val * 2 ^ 16 + 0x1A) ∧
    (s.reg b ≠ 0#32 →
      ∃ t, exec (.div a b) s = .next t ∧ OnlyHiLo s t ∧
        (s.reg a = 0x80000000#32 ∧ s.reg b = 0xFFFFFFFF#32 → t.lo = 0x80000000#32 ∧ t.hi = 0#32) ∧
        (¬ (s.reg a = 0x80000000#32 ∧ s.reg b = 0xFFFFFFFF#32) →
          (s.reg a).toInt = t.lo.toInt * (s.reg b).toInt + t.hi.toInt ∧
          |t.hi.toInt| < |(s.reg b).toInt| ∧
          (0 ≤ (s.reg a).toInt → 0 ≤ t.hi.toInt) ∧ ((s.reg a).toInt ≤ 0 → t.hi.toInt ≤ 0))) ∧
    (s.reg b = 0#32 →
      ∃ t, exec (.div a b) s = .next t ∧ t.status = .faulted (.divideByZero s.cur) ∧ OnlyStatus s t)

/-- R121, R125, R204: unsigned division; a divisor of 0 raises DivideByZeroFault with `cur`, before HI or LO is written. -/
def Obligations.DivuDividesOrFaults : Prop :=
  ∀ (a b : Reg) (s : State),
    EncodedBy (.divu a b) (a.val * 2 ^ 21 + b.val * 2 ^ 16 + 0x1B) ∧
    (s.reg b ≠ 0#32 →
      ∃ t, exec (.divu a b) s = .next t ∧ OnlyHiLo s t ∧
        (s.reg a).toNat = t.lo.toNat * (s.reg b).toNat + t.hi.toNat ∧ t.hi.toNat < (s.reg b).toNat) ∧
    (s.reg b = 0#32 →
      ∃ t, exec (.divu a b) s = .next t ∧ t.status = .faulted (.divideByZero s.cur) ∧ OnlyStatus s t)

/-- R126, R127: `mfhi` and `mflo`, for every destination, register 0 included; HI and LO are not changed. -/
def Obligations.MovesCopyHiAndLo : Prop :=
  ∀ (d : Reg) (s : State),
    EncodedBy (.mfhi d) (d.val * 2 ^ 11 + 0x10) ∧
    EncodedBy (.mflo d) (d.val * 2 ^ 11 + 0x12) ∧
    (∃ t, exec (.mfhi d) s = .next t ∧ t.reg d = s.hi ∧ OnlyRegs [d] s t ∧ t.pc = s.pc) ∧
    (∃ t, exec (.mflo d) s = .next t ∧ t.reg d = s.lo ∧ OnlyRegs [d] s t ∧ t.pc = s.pc)

/-! ## Literal, load and store (42_load_store.md, 20_memory.md) -/

/-- R140: `lis` reads the word at `pc` by plain memory, also where a port is, and skips it; no input is consumed. -/
def Obligations.LisLoadsLiteral : Prop :=
  ∀ (d : Reg) (s : State),
    EncodedBy (.lis d) (d.val * 2 ^ 11 + 0x14) ∧
    ∃ t, exec (.lis d) s = .next t ∧ t.reg d = memRead s.mem s.pc ∧ t.pc.toNat = (s.pc.toNat + 4) % 2 ^ 32 ∧
      OnlyRegs [d] s t

/-- R141, R161: the effective address is the base plus the sign-extended immediate, and the branch target `pc` plus 4 times
it, both wrapped to 32 bits; the target is a multiple of 4 when `pc` is, and then never the sentinel. -/
def Obligations.AddressesWrapAndTargetsAlign : Prop :=
  ∀ (base : Word) (imm : Imm16),
    ((effectiveAddress base imm).toNat : Int) = (base.toNat + imm.toInt) % 2 ^ 32 ∧
    ((branchTarget base imm).toNat : Int) = (base.toNat + 4 * imm.toInt) % 2 ^ 32 ∧
    (base.toNat % 4 = 0 → (branchTarget base imm).toNat % 4 = 0 ∧ branchTarget base imm ≠ 0xFFFFFFFF#32)

/-- R142: `lw` from an aligned address other than the input port, for every destination, register 0 included. The bytes of
a word are held big-endian (DESIGN CHOICE, notes/assumptions/1.md). -/
def Obligations.LwLoadsMemoryWord : Prop :=
  ∀ (t : Reg) (imm : Imm16) (b : Reg) (s : State),
    let ea := effectiveAddress (s.reg b) imm
    EncodedBy (.lw t imm b) (0x23 * 2 ^ 26 + b.val * 2 ^ 21 + t.val * 2 ^ 16 + imm.toNat) ∧
    (ea.toNat % 4 = 0 → ea ≠ 0xFFFF0004#32 →
      ∃ u, exec (.lw t imm b) s = .next u ∧
        u.reg t = s.mem.readByte ea.toNat ++ s.mem.readByte (ea.toNat + 1) ++ s.mem.readByte (ea.toNat + 2)
          ++ s.mem.readByte (ea.toNat + 3) ∧
        OnlyRegs [t] s u ∧ u.pc = s.pc)

/-- R62: `lw` from the input port draws one answer; a code in 0..255 is loaded zero-extended, for every destination,
register 0 included; memory is not read or changed. -/
def Obligations.LwDrawsInputByte : Prop :=
  ∀ (t : Reg) (imm : Imm16) (b : Reg) (s : State) (c : Int) (rest : List InputAnswer),
    effectiveAddress (s.reg b) imm = 0xFFFF0004#32 → s.input = .code c :: rest → 0 ≤ c → c ≤ 255 →
    ∃ u, exec (.lw t imm b) s = .next u ∧ ((u.reg t).toNat : Int) = c ∧ u.input = rest ∧ u.out = s.out ∧
      SameRegsBut [t] s u ∧ SameHiLo s u ∧ SameMemory s u ∧ SameHost s u ∧ u.status = s.status ∧ u.pc = s.pc

/-- R203: an answer that is a failure or a code outside 0..255 raises IOFault with `cur` and the answer, after the answer
is consumed and before any register is written. -/
def Obligations.InvalidInputFaults : Prop :=
  ∀ (t : Reg) (imm : Imm16) (b : Reg) (s : State) (r : InputAnswer) (rest : List InputAnswer),
    effectiveAddress (s.reg b) imm = 0xFFFF0004#32 → s.input = r :: rest →
    (r = .fail ∨ ∃ c, r = .code c ∧ (c < 0 ∨ 255 < c)) →
    ∃ u, exec (.lw t imm b) s = .next u ∧ u.status = .faulted (.io s.cur r) ∧ u.input = rest ∧ u.out = s.out ∧
      SameRegsBut [] s u ∧ SameHiLo s u ∧ SameMemory s u ∧ SameHost s u ∧ u.pc = s.pc

/-- R63: while the provider has no answer a `lw` from the input port has no step: the machine is stuck, not faulted. -/
def Obligations.LoadWaitsForInput : Prop :=
  ∀ (t : Reg) (imm : Imm16) (b : Reg) (s : State),
    effectiveAddress (s.reg b) imm = 0xFFFF0004#32 → s.input = [] → exec (.lw t imm b) s = .fault .awaitingInput

/-- R143: `sw` to an aligned address other than the output port stores the register's word there, and every other byte of
memory stays. -/
def Obligations.SwStoresMemoryWord : Prop :=
  ∀ (t : Reg) (imm : Imm16) (b : Reg) (s : State),
    let ea := effectiveAddress (s.reg b) imm
    EncodedBy (.sw t imm b) (0x2B * 2 ^ 26 + b.val * 2 ^ 21 + t.val * 2 ^ 16 + imm.toNat) ∧
    (s.mem.wf = true → ea.toNat % 4 = 0 → ea ≠ 0xFFFF000C#32 →
      ∃ u, exec (.sw t imm b) s = .next u ∧ memRead u.mem ea = s.reg t ∧ SameMemoryBut ea.toNat s u ∧
        SameRegsBut [] s u ∧ SameHiLo s u ∧ SamePorts s u ∧ SameHost s u ∧ u.status = s.status ∧ u.pc = s.pc)

/-- R64: `sw` to the output port appends the low 8 bits of the register to the output stream and does not touch memory. -/
def Obligations.SwToPortSendsLowByte : Prop :=
  ∀ (t : Reg) (imm : Imm16) (b : Reg) (s : State), effectiveAddress (s.reg b) imm = 0xFFFF000C#32 →
    ∃ u, exec (.sw t imm b) s = .next u ∧ u.out = s.out ++ [BitVec.ofNat 8 ((s.reg t).toNat % 256)] ∧
      u.input = s.input ∧ SameMemory s u ∧ SameRegsBut [] s u ∧ SameHiLo s u ∧ SameHost s u ∧
      u.status = s.status ∧ u.pc = s.pc

/-- R55, R202: a misaligned `lw` or `sw` raises AlignmentFault of its kind with the address and `cur`, before any memory,
register, input or output is touched. -/
def Obligations.MisalignedDataFaults : Prop :=
  ∀ (t : Reg) (imm : Imm16) (b : Reg) (s : State),
    let ea := effectiveAddress (s.reg b) imm
    ea.toNat % 4 ≠ 0 →
    (∃ u, exec (.lw t imm b) s = .next u ∧ u.status = .faulted (.alignment .load ea s.cur) ∧ OnlyStatus s u) ∧
    (∃ u, exec (.sw t imm b) s = .next u ∧ u.status = .faulted (.alignment .store ea s.cur) ∧ OnlyStatus s u)

/-- R53: a word never written reads 0; a word read after a word written: the new value at that word, the old one at every
other; the canonical form stays. -/
def Obligations.MemoryReadAfterWrite : Prop :=
  (∀ a : Word, memRead [] a = 0#32) ∧
  ∀ (m : Memory) (a b v : Word), m.wf = true →
    (memWrite m a v).wf = true ∧
    memRead (memWrite m a v) b = if a.toNat / 4 = b.toNat / 4 then v else memRead m b

/-- R71: a store to the next instruction's address is what the next step fetches. -/
def Obligations.StoreIsFetchedNext : Prop :=
  ∀ (s : State) (t : Reg) (imm : Imm16) (b : Reg), s.RunsAlone → s.mem.wf = true → s.pc.toNat % 4 = 0 →
    decode s.fetchWord = some (.sw t imm b) → effectiveAddress (s.operand b) imm = s.pc + 4#32 →
    s.pc + 4#32 ≠ 0xFFFF000C#32 →
    ∃ u, step s = .next u ∧ u.status = .running ∧ u.pc = s.pc + 4#32 ∧ u.fetchWord = s.operand t

/-! ## Comparisons (43_compare.md) -/

/-- R150, R151: `slt` and `sltu`, exactly 0 or 1, for every destination, register 0 included. -/
def Obligations.SetLessThanWritesComparison : Prop :=
  ∀ (d a b : Reg) (s : State),
    EncodedBy (.slt d a b) (a.val * 2 ^ 21 + b.val * 2 ^ 16 + d.val * 2 ^ 11 + 0x2A) ∧
    EncodedBy (.sltu d a b) (a.val * 2 ^ 21 + b.val * 2 ^ 16 + d.val * 2 ^ 11 + 0x2B) ∧
    (∃ t, exec (.slt d a b) s = .next t ∧
      t.reg d = (if (s.reg a).toInt < (s.reg b).toInt then 1#32 else 0#32) ∧ OnlyRegs [d] s t ∧ t.pc = s.pc) ∧
    (∃ t, exec (.sltu d a b) s = .next t ∧
      t.reg d = (if (s.reg a).toNat < (s.reg b).toNat then 1#32 else 0#32) ∧ OnlyRegs [d] s t ∧ t.pc = s.pc)

/-! ## Branches and jumps (44_control.md) -/

/-- R162, R163: `beq` branches when the registers are equal and `bne` when they differ; each falls through otherwise and
writes nothing but `pc`. -/
def Obligations.BranchesCompareRegisters : Prop :=
  ∀ (a b : Reg) (imm : Imm16) (s : State),
    EncodedBy (.beq a b imm) (0x04 * 2 ^ 26 + a.val * 2 ^ 21 + b.val * 2 ^ 16 + imm.toNat) ∧
    EncodedBy (.bne a b imm) (0x05 * 2 ^ 26 + a.val * 2 ^ 21 + b.val * 2 ^ 16 + imm.toNat) ∧
    (∃ t, exec (.beq a b imm) s = .next t ∧ OnlyRegs [] s t ∧
      (s.reg a = s.reg b → (t.pc.toNat : Int) = (s.pc.toNat + 4 * imm.toInt) % 2 ^ 32) ∧
      (s.reg a ≠ s.reg b → t.pc = s.pc)) ∧
    (∃ t, exec (.bne a b imm) s = .next t ∧ OnlyRegs [] s t ∧
      (s.reg a ≠ s.reg b → (t.pc.toNat : Int) = (s.pc.toNat + 4 * imm.toInt) % 2 ^ 32) ∧
      (s.reg a = s.reg b → t.pc = s.pc))

/-- R164, R165: `jr` writes the whole register to `pc`, unmasked and unchecked, and nothing else. -/
def Obligations.JrJumpsToRegister : Prop :=
  ∀ (a : Reg) (s : State),
    EncodedBy (.jr a) (a.val * 2 ^ 21 + 0x08) ∧
    ∃ t, exec (.jr a) s = .next t ∧ t.pc = s.reg a ∧ OnlyRegs [] s t

/-- R166: `jalr` reads its target first, links `pc` in register 31 and jumps; `jalr $31` jumps to the old register 31. -/
def Obligations.JalrLinksAndJumps : Prop :=
  ∀ (a : Reg) (s : State),
    EncodedBy (.jalr a) (a.val * 2 ^ 21 + 0x09) ∧
    ∃ t, exec (.jalr a) s = .next t ∧ t.reg 31 = s.pc ∧ t.pc = s.reg a ∧ OnlyRegs [31] s t

/-! ## The whole machine -/

/-- R24: in any step of any session, HI or LO changes only when the instruction at `pc` is a multiply or a divide. -/
def Obligations.HiLoWrittenOnlyByMultiplyDivide : Prop :=
  ∀ s t : State, step s = .next t → ¬ SameHiLo s t →
    ∃ a b, decode s.fetchWord = some (.mult a b) ∨ decode s.fetchWord = some (.multu a b) ∨
      decode s.fetchWord = some (.div a b) ∨ decode s.fetchWord = some (.divu a b)

/-- R21: an instruction writes no general register but its destination: `d`, for `lw` `t`, for `jalr` 31, and none for
`mult`, `multu`, `div`, `divu`, `sw`, `beq`, `bne`, `jr`. -/
def Obligations.OnlyTheDestinationIsWritten : Prop :=
  ∀ (i : Instr) (s t : State) (r : Reg), exec i s = .next t → t.reg r ≠ s.reg r → i.dest? = some r

/-- R52, R61: without a debugger, a byte of memory changes only in a `sw` whose word it lies in and that is not to the
output port. -/
def Obligations.OnlySwWritesMemory : Prop :=
  ∀ (s t : State) (a : Nat), s.debugger = none → step s = .next t → t.mem.readByte a ≠ s.mem.readByte a →
    ∃ rt imm rs, decode s.fetchWord = some (.sw rt imm rs) ∧
      effectiveAddress (s.operand rs) imm ≠ 0xFFFF000C#32 ∧
      (effectiveAddress (s.operand rs) imm).toNat ≤ a ∧ a < (effectiveAddress (s.operand rs) imm).toNat + 4

/-- R35, R64: the output stream is append-only in every step of any session, and one byte is appended exactly by a `sw` to
the output port. -/
def Obligations.OutputIsAppendOnly : Prop :=
  ∀ s t : State, step s = .next t →
    t.out = s.out ∨
    ∃ rt imm rs, decode s.fetchWord = some (.sw rt imm rs) ∧
      effectiveAddress (s.operand rs) imm = 0xFFFF000C#32 ∧
      t.out = s.out ++ [BitVec.ofNat 8 ((s.operand rt).toNat % 256)]

/-- R63, R65, R73: input is drawn, one answer at a time and in order, only by a `lw` from the input port; no fetch, `lis`,
other address or debugger command draws any. -/
def Obligations.InputDrawnOnlyByLw : Prop :=
  ∀ s t : State, step s = .next t →
    t.input = s.input ∨
    ∃ rt imm rs r, decode s.fetchWord = some (.lw rt imm rs) ∧
      effectiveAddress (s.operand rs) imm = 0xFFFF0004#32 ∧ s.input = r :: t.input

/-- R29, R164: from a `pc` that is a multiple of 4, only `jr` and `jalr` can leave one that is not. -/
def Obligations.OnlyJumpsMisalignPc : Prop :=
  ∀ s t : State, step s = .next t → s.pc.toNat % 4 = 0 → t.pc.toNat % 4 ≠ 0 →
    ∃ a, decode s.fetchWord = some (.jr a) ∨ decode s.fetchWord = some (.jalr a)

/-- R205: the faults each instruction can raise in its own execute phase. -/
def Obligations.FaultsOfEachInstruction : Prop :=
  ∀ (i : Instr) (s t : State) (f : FaultRecord), exec i s = .next t → s.status = .running → t.status = .faulted f →
    (∃ a b, (i = .div a b ∨ i = .divu a b) ∧ f = .divideByZero s.cur) ∨
    (∃ rt imm rs, i = .lw rt imm rs ∧
      ((∃ ea, f = .alignment .load ea s.cur) ∨ ∃ r, f = .io s.cur r)) ∨
    (∃ rt imm rs, i = .sw rt imm rs ∧ ∃ ea, f = .alignment .store ea s.cur)

/-- R36: the state at a fault. A fetch fault leaves every piece of state as it was; any other leaves `cur` the faulting
instruction's address, `pc` 4 further, register 0 zero, and no other change to registers, HI, LO, memory or output. -/
def Obligations.FaultsArePrecise : Prop :=
  ∀ (s t : State) (f : FaultRecord), s.RunsAlone → step s = .next t → t.status = .faulted f →
    (t = { s with status := .faulted f } ∧ ∃ i, f = .alignment .fetch s.pc i) ∨
    (t.cur = s.pc ∧ t.pc = s.pc + 4#32 ∧ t.reg 0 = 0#32 ∧ SameRegsBut [0] s t ∧ SameHiLo s t ∧ SameMemory s t ∧
      t.out = s.out ∧ ∀ a i, f ≠ .alignment .fetch a i)

/-- R22, R23 (a): no instruction can read what was written to register 0: a step that fetches does not depend on it. -/
def Obligations.RegisterZeroIsNeverRead : Prop :=
  ∀ (s : State) (v : Word), s.RunsAlone → s.pc.toNat % 4 = 0 → step (s.setReg 0 v) = step s

/-- R23 (c): in any run of any launch without a debugger, register 0 is 0 at termination. -/
def Obligations.RegisterZeroIsZeroAtTermination : Prop :=
  ∀ (l : Launch) (s t : State), l.debugOptions = none → launch l = .ok s → Reaches s t → t.status = .terminated → t.reg 0 = 0#32

/-- Every step, with or without a debugger, keeps the machine's invariant: canonical memory (R51, R52), an aligned Current
Offset (R27), Terminated only at the sentinel (R28), fault records that fit the state (R200), a canonical Breakpoint Set
(R220). -/
def Obligations.StepKeepsInvariant : Prop := ∀ s t : State, s.Inv → step s = .next t → t.Inv

/-- The invariant holds at reset. It rests on the model's reset value of `cur` (notes/assumptions/3.md). -/
def Obligations.ResetHasInvariant : Prop := State.reset.Inv

/-! ## The debugger as host (60_exceptions.md) -/

/-- R220: the host-side state is read by no instruction: executing under any debugger gives the same core. -/
def Obligations.DebuggerDoesNotChangeResults : Prop :=
  ∀ (i : Instr) (s : State) (d : Option Debugger),
    exec i { s with debugger := d } = onNext (exec i s) fun t => .next { t with debugger := d }

/-- The session refines the core (R222, R225 to R228): every step of a session leaves the core as it was, or is one step
of the core alone, or is a register patch or a memory patch by command. -/
def Obligations.SessionRefinesCore : Prop :=
  ∀ (s t : State) (d : Debugger), s.debugger = some d → step s = .next t →
    t.core = s.core ∨ step s.core = .next t.core ∨
    (d.mode = .paused ∧ ∃ (r : Reg) (v : Int) (rest : List Command),
      d.commands = .patchRegister (.num r.val) (.num v) :: rest ∧ t.core = s.core.setReg r (BitVec.ofInt 32 v)) ∨
    (d.mode = .paused ∧ ∃ (a : Word) (vs : List Int) (rest : List Command),
      d.commands = .patchMemory (.num a.toNat) vs :: rest ∧ t.core = s.core.writeEntries a vs)

/-- R222: at a breakpoint, or the temporary one, with the resume flag clear, the debugger pauses before the fetch: the
instruction at `pc` has not run. -/
def Obligations.BreakpointPausesBeforeFetch : Prop :=
  ∀ (s : State) (d : Debugger), s.RunsUnder d → s.pc.toNat % 4 = 0 → d.resumeFlag = false →
    (s.pc.toNat / 4 ∈ d.breakpoints ∨ d.tempBreak = some (s.pc.toNat / 4)) →
    step s = .next { s with debugger := some { d with mode := .paused, tempBreak := none } }

/-- R225: "toggling twice returns the Breakpoint Set to its original state", and one toggle changes membership of that
index alone. -/
def Obligations.ToggleTwiceRestores : Prop :=
  ∀ (k : Nat) (b : List Nat), breakpointsOk b = true →
    toggleBreakpoint k (toggleBreakpoint k b) = b ∧ (k ∈ toggleBreakpoint k b ↔ k ∉ b) ∧
    ∀ j, j ≠ k → (j ∈ toggleBreakpoint k b ↔ j ∈ b)

/-- R225: `step-over` installs the temporary breakpoint after the instruction, past the literal of a `lis`, and resumes;
`continue` resumes; `step-into` runs exactly one step of the core, whatever the breakpoints, and pauses again. -/
def Obligations.ExecutionCommandsMoveTheCore : Prop :=
  ∀ (s : State) (d : Debugger) (rest : List Command), s.status = .running →
    (s.ReadsCommand d .stepOver rest → s.pc.toNat % 4 = 0 →
      ∃ e, step s = .next { s with debugger := some e } ∧ e.breakpoints = d.breakpoints ∧ e.commands = rest ∧
        e.mode = .running ∧ e.resumeFlag = true ∧ e.tracing = d.tracing ∧
        ((∃ r, decode s.fetchWord = some (.lis r)) → e.tempBreak = some ((s.pc + 8#32).toNat / 4)) ∧
        ((¬ ∃ r, decode s.fetchWord = some (.lis r)) → e.tempBreak = some ((s.pc + 4#32).toNat / 4))) ∧
    (s.ReadsCommand d .resume rest →
      step s = .next { s with debugger := some { d with commands := rest, mode := .running, resumeFlag := true } }) ∧
    (∀ u, s.ReadsCommand d .stepInto rest → step s.core = .next u →
      step s = .next { u with debugger := some { d with commands := rest, mode := .paused, tempBreak := none } })

/-- R226: `register reg value` writes `norm(value)` to the register, register 0 included; an index outside 0..31 or an
argument that does not parse changes nothing but that the command is read (from the model's command stream,
notes/assumptions/8.md). -/
def Obligations.RegisterCommandPatches : Prop :=
  ∀ (s : State) (d : Debugger) (reg value : Arg) (rest : List Command), s.ReadsCommand d (.patchRegister reg value) rest →
    (∀ (r : Reg) (v : Int), reg = .num r.val → value = .num v →
      ∃ t, step s = .next t ∧ t.reg r = BitVec.ofInt 32 v ∧ SameRegsBut [r] s t ∧ SameHiLo s t ∧ t.mem = s.mem ∧
        SamePorts s t ∧ t.pc = s.pc ∧ t.cur = s.cur ∧ t.status = s.status ∧
        t.debugger = some { d with commands := rest }) ∧
    ((∃ n : Int, reg = .num n ∧ (n < 0 ∨ 31 < n)) ∨ reg = .unparsable ∨ value = .unparsable →
      step s = .next { s with debugger := some { d with commands := rest } })

/-- R227, 20_memory.md R73: `write start` stores its entries at successive words by plain memory; no port is touched and
every other byte of memory stays. For entries that stay below the top of the address space. -/
def Obligations.WriteCommandPatches : Prop :=
  ∀ (s : State) (d : Debugger) (a : Word) (vs : List Int) (rest : List Command), s.mem.wf = true →
    s.ReadsCommand d (.patchMemory (.num a.toNat) vs) rest → 4 * (a.toNat / 4) + 4 * vs.length ≤ 2 ^ 32 →
    ∃ t, step s = .next t ∧
      (∀ (k : Nat) (v : Int), vs[k]? = some v → memRead t.mem (BitVec.ofNat 32 (4 * (a.toNat / 4 + k))) = BitVec.ofInt 32 v) ∧
      (∀ x : Nat, x < 4 * (a.toNat / 4) ∨ 4 * (a.toNat / 4) + 4 * vs.length ≤ x → t.mem.readByte x = s.mem.readByte x) ∧
      SameRegsBut [] s t ∧ SameHiLo s t ∧ SamePorts s t ∧ t.pc = s.pc ∧ t.cur = s.cur ∧ t.status = s.status ∧
      t.debugger = some { d with commands := rest }

/-- R228, R223, R227: `quit` ends the session and nothing runs after it (`ended` is the model's mode,
notes/assumptions/11.md); `trace` toggles the Tracing Flag; `help`, `print`, unrecognized input and a command whose address
does not parse change nothing but that the command is read, and the debugger stays paused. -/
def Obligations.OtherCommandsLeaveTheCore : Prop :=
  ∀ (s : State) (d : Debugger) (c : Command) (rest : List Command), s.ReadsCommand d c rest →
    (c = .quit → ∃ t, step s = .next t ∧ t = { s with debugger := some { d with commands := rest, mode := .ended } } ∧
      ∀ u, step t ≠ .next u) ∧
    (c = .toggleTrace →
      step s = .next { s with debugger := some { d with commands := rest, tracing := !d.tracing } }) ∧
    (c = .help ∨ c = .unrecognized ∨ (∃ a b, c = .print a b) ∨ c = .toggleBreak (some .unparsable) ∨
        (∃ n : Int, c = .toggleBreak (some (.num n)) ∧ (n < 0 ∨ 2 ^ 32 ≤ n)) ∨ (∃ vs, c = .patchMemory .unparsable vs) →
      step s = .next { s with debugger := some { d with commands := rest } })

/-! ## Loading (70_reset_and_hazards.md) -/

/-- R240, R241: what a launch leaves: the registers, HI and LO, the image at its offset and zero memory elsewhere, no output, Running,
`pc` at the load offset, then the initial registers (the last value given for a register). -/
def Obligations.LaunchGivesResetState : Prop :=
  ∀ (l : Launch) (s : State), launch l = .ok s →
    (∀ r : Reg, s.reg r = match l.initRegs.reverse.find? (fun p => p.1 == r) with
      | some p => BitVec.ofInt 32 p.2
      | none => if r = 31 then 0xFFFFFFFF#32 else 0#32) ∧
    s.hi = 0#32 ∧ s.lo = 0#32 ∧ s.pc = l.loadOffset ∧ s.out = [] ∧ s.status = .running ∧ s.input = l.input ∧
    (∀ (k : Nat) (w : Word), l.image[k]? = some w → memRead s.mem (BitVec.ofNat 32 (l.loadOffset.toNat + 4 * k)) = w) ∧
    (∀ x : Nat, x < l.loadOffset.toNat ∨ l.loadOffset.toNat + 4 * l.image.length ≤ x → s.mem.readByte x = 0#8)

/-- R242: a misaligned offset and an image that would run past 0xFFFFFFFC start no session, and every other launch starts
one that has the machine's invariant. -/
def Obligations.LaunchStartsWellFormedSessions : Prop :=
  ∀ l : Launch,
    (l.loadOffset.toNat % 4 ≠ 0 ∨ 2 ^ 32 < l.loadOffset.toNat + 4 * l.image.length → ∃ e, launch l = .error e) ∧
    (l.loadOffset.toNat % 4 = 0 → l.loadOffset.toNat + 4 * l.image.length ≤ 2 ^ 32 → ∃ s, launch l = .ok s ∧ s.Inv)

/-- R241, R242: the words of an image read back from their big-endian bytes and from their hex digits; an image of a length
that is not whole words, or with a character that is no hex digit, is refused. -/
def Obligations.ImagesAreBigEndianWords : Prop :=
  (∀ ws : List Word, binaryImage (ws.flatMap bytesOfWord) = .ok ws ∧ hexImage (ws.flatMap hexOfWord) = .ok ws) ∧
  (∀ bytes : List Byte, bytes.length % 4 ≠ 0 → binaryImage bytes = .error .badLength) ∧
  (∀ digits : List Char, digits.length % 8 ≠ 0 ∨ (∃ c ∈ digits, isHexDigit c = false) → ∃ e, hexImage digits = .error e)

/-- R224, R220, R221: at session start the Breakpoint Set holds exactly the image's soft-breakpoint words and the command
line's addresses; the debugger is paused, with no temporary breakpoint and the resume flag clear. -/
def Obligations.SoftBreakpointsAreSeeded : Prop :=
  ∀ (l : Launch) (o : DebugOptions) (s : State), l.debugOptions = some o → launch l = .ok s →
    ∃ d, s.debugger = some d ∧ d.mode = .paused ∧ d.tempBreak = none ∧ d.resumeFlag = false ∧ d.tracing = o.trace ∧
      ∀ k : Nat, k ∈ d.breakpoints ↔
        (∃ i, l.image[i]? = some 0x00000020#32 ∧ k = l.loadOffset.toNat / 4 + i) ∨ ∃ a ∈ o.breakpoints, k = a.toNat / 4

/-- R99: a disassembly has one line a word; a `lis` takes the next word as a literal, undecoded, and an undecodable word
does not stop the scan. A `lis` at the end gives its own line only (notes/assumptions/19.md). -/
def Obligations.DisassemblyCoversEveryWord : Prop :=
  (∀ ws : List Word, (disassemble ws).length = ws.length) ∧
  (∀ (r : Reg) (w : Word) (ws : List Word),
    disassemble (encode (.lis r) :: w :: ws) = .instruction (.lis r) :: .literal w :: disassemble ws) ∧
  (∀ (w : Word) (i : Instr) (ws : List Word), decode w = some i → (∀ r, i ≠ .lis r) →
    disassemble (w :: ws) = .instruction i :: disassemble ws) ∧
  (∀ (w : Word) (ws : List Word), decode w = none → disassemble (w :: ws) = .undecodable w :: disassemble ws)

/-! ## Register 0 at the end of a run, as a step lemma -/

/-- R23 (c): without a debugger every step keeps register 0 at 0 wherever `pc` is the sentinel or the run has terminated,
and every launch, with or without a debugger, starts so. -/
def Obligations.StepKeepsZeroAtEnd : Prop :=
  (∀ s t : State, s.debugger = none → s.ZeroAtEnd → step s = .next t → t.debugger = none ∧ t.ZeroAtEnd) ∧
  (∀ (l : Launch) (s : State), launch l = .ok s → s.ZeroAtEnd)
end

