-- ==== Sys2Proof/Laws/Decode.lean ====
section
/-! SUPPORT. Small lemmas of the decoder and the encoder: the fields of each format's word, its masks, and a word as its
fields. -/

namespace Sys2Proof.Laws
open Sys2Proof

/-! ## Concatenations of the two field layouts (30_encoding.md R82 to R86) -/

theorem fields6_and (a a' : BitVec 6) (b b' c c' d d' e e' : BitVec 5) (f f' : BitVec 6) :
    (a ++ b ++ c ++ d ++ e ++ f) &&& (a' ++ b' ++ c' ++ d' ++ e' ++ f')
      = (a &&& a') ++ (b &&& b') ++ (c &&& c') ++ (d &&& d') ++ (e &&& e') ++ (f &&& f') := by
  simp only [BitVec.and_append]

theorem fields4_and (a a' : BitVec 6) (b b' c c' : BitVec 5) (i i' : BitVec 16) :
    (a ++ b ++ c ++ i) &&& (a' ++ b' ++ c' ++ i') = (a &&& a') ++ (b &&& b') ++ (c &&& c') ++ (i &&& i') := by
  simp only [BitVec.and_append]

theorem fields6_bits21 (a : BitVec 6) (b c d e : BitVec 5) (f : BitVec 6) :
    (a ++ b ++ c ++ d ++ e ++ f).extractLsb' 21 5 = b := by
  simp (disch := decide) only [BitVec.extractLsb'_append_eq_of_le]
  exact BitVec.extractLsb'_append_eq_right

theorem fields6_bits16 (a : BitVec 6) (b c d e : BitVec 5) (f : BitVec 6) :
    (a ++ b ++ c ++ d ++ e ++ f).extractLsb' 16 5 = c := by
  simp (disch := decide) only [BitVec.extractLsb'_append_eq_of_le]
  exact BitVec.extractLsb'_append_eq_right

theorem fields6_bits11 (a : BitVec 6) (b c d e : BitVec 5) (f : BitVec 6) :
    (a ++ b ++ c ++ d ++ e ++ f).extractLsb' 11 5 = d := by
  simp (disch := decide) only [BitVec.extractLsb'_append_eq_of_le]
  exact BitVec.extractLsb'_append_eq_right

theorem fields4_bits21 (a : BitVec 6) (b c : BitVec 5) (i : BitVec 16) :
    (a ++ b ++ c ++ i).extractLsb' 21 5 = b := by
  simp (disch := decide) only [BitVec.extractLsb'_append_eq_of_le]
  exact BitVec.extractLsb'_append_eq_right

theorem fields4_bits16 (a : BitVec 6) (b c : BitVec 5) (i : BitVec 16) :
    (a ++ b ++ c ++ i).extractLsb' 16 5 = c := by
  simp (disch := decide) only [BitVec.extractLsb'_append_eq_of_le]
  exact BitVec.extractLsb'_append_eq_right

/-- A word is its six register-format fields. -/
theorem word_eq_fields6 (w : Word) :
    w = w.extractLsb' 26 6 ++ w.extractLsb' 21 5 ++ w.extractLsb' 16 5 ++ w.extractLsb' 11 5 ++ w.extractLsb' 6 5
      ++ w.extractLsb' 0 6 := by
  rw [BitVec.extractLsb'_append_extractLsb'_eq_extractLsb' (by decide),
    BitVec.extractLsb'_append_extractLsb'_eq_extractLsb' (by decide),
    BitVec.extractLsb'_append_extractLsb'_eq_extractLsb' (by decide),
    BitVec.extractLsb'_append_extractLsb'_eq_extractLsb' (by decide),
    BitVec.extractLsb'_append_extractLsb'_eq_extractLsb' (by decide)]
  exact (BitVec.extractLsb'_eq_self).symm

/-- A word is its four immediate-format fields. -/
theorem word_eq_fields4 (w : Word) :
    w = w.extractLsb' 26 6 ++ w.extractLsb' 21 5 ++ w.extractLsb' 16 5 ++ w.extractLsb' 0 16 := by
  rw [BitVec.extractLsb'_append_extractLsb'_eq_extractLsb' (by decide),
    BitVec.extractLsb'_append_extractLsb'_eq_extractLsb' (by decide),
    BitVec.extractLsb'_append_extractLsb'_eq_extractLsb' (by decide)]
  exact (BitVec.extractLsb'_eq_self).symm

/-! ## Register fields -/

@[simp] theorem regBits_toNat (r : Reg) : (regBits r).toNat = r.val := by
  simp only [regBits, BitVec.toNat_ofNat]
  omega

/-- The register read from bits that hold its number. -/
theorem regField_eq {w : Word} {lo : Nat} {r : Reg} (h : w.extractLsb' lo 5 = regBits r) : regField w lo = r := by
  apply Fin.ext
  simp [regField, h]

/-- The bits of a register read from a word. -/
@[simp] theorem regBits_regField (w : Word) (lo : Nat) : regBits (regField w lo) = w.extractLsb' lo 5 := by
  simp only [regField, regBits]
  exact BitVec.ofNat_toNat 5 _ |>.trans (by simp)

/-! ## The formats' fields -/

@[simp] theorem fieldS_encodeR3 (fn : BitVec 6) (d s t : Reg) : fieldS (encodeR3 fn d s t) = s :=
  regField_eq (fields6_bits21 _ _ _ _ _ _)

@[simp] theorem fieldT_encodeR3 (fn : BitVec 6) (d s t : Reg) : fieldT (encodeR3 fn d s t) = t :=
  regField_eq (fields6_bits16 _ _ _ _ _ _)

@[simp] theorem fieldD_encodeR3 (fn : BitVec 6) (d s t : Reg) : fieldD (encodeR3 fn d s t) = d :=
  regField_eq (fields6_bits11 _ _ _ _ _ _)

@[simp] theorem fieldS_encodeR2 (fn : BitVec 6) (s t : Reg) : fieldS (encodeR2 fn s t) = s :=
  regField_eq (fields6_bits21 _ _ _ _ _ _)

@[simp] theorem fieldT_encodeR2 (fn : BitVec 6) (s t : Reg) : fieldT (encodeR2 fn s t) = t :=
  regField_eq (fields6_bits16 _ _ _ _ _ _)

@[simp] theorem fieldD_encodeR1d (fn : BitVec 6) (d : Reg) : fieldD (encodeR1d fn d) = d :=
  regField_eq (fields6_bits11 _ _ _ _ _ _)

@[simp] theorem fieldS_encodeR1s (fn : BitVec 6) (s : Reg) : fieldS (encodeR1s fn s) = s :=
  regField_eq (fields6_bits21 _ _ _ _ _ _)

@[simp] theorem fieldS_encodeI (op : BitVec 6) (s t : Reg) (imm : Imm16) : fieldS (encodeI op s t imm) = s :=
  regField_eq (fields4_bits21 _ _ _ _)

@[simp] theorem fieldT_encodeI (op : BitVec 6) (s t : Reg) (imm : Imm16) : fieldT (encodeI op s t imm) = t :=
  regField_eq (fields4_bits16 _ _ _ _)

@[simp] theorem fieldImm_encodeI (op : BitVec 6) (s t : Reg) (imm : Imm16) : fieldImm (encodeI op s t imm) = imm :=
  BitVec.extractLsb'_append_eq_right

/-! ## The formats' masks (30_encoding.md R91) -/

theorem encodeR3_and_mask (fn : BitVec 6) (d s t : Reg) : encodeR3 fn d s t &&& 0xFC0007FF#32 = 0#26 ++ fn := by
  have h : 0xFC0007FF#32 = 0x3F#6 ++ 0#5 ++ 0#5 ++ 0#5 ++ 0x1F#5 ++ 0x3F#6 := by decide
  rw [h]
  refine (fields6_and _ _ _ _ _ _ _ _ _ _ _ _).trans ?_
  simp only [BitVec.and_zero, BitVec.zero_and]
  revert fn
  decide

theorem encodeR2_and_mask (fn : BitVec 6) (s t : Reg) : encodeR2 fn s t &&& 0xFC00FFFF#32 = 0#26 ++ fn := by
  have h : 0xFC00FFFF#32 = 0x3F#6 ++ 0#5 ++ 0#5 ++ 0x1F#5 ++ 0x1F#5 ++ 0x3F#6 := by decide
  rw [h]
  refine (fields6_and _ _ _ _ _ _ _ _ _ _ _ _).trans ?_
  simp only [BitVec.and_zero, BitVec.zero_and]
  revert fn
  decide

theorem encodeR1d_and_mask (fn : BitVec 6) (d : Reg) : encodeR1d fn d &&& 0xFFFF07FF#32 = 0#26 ++ fn := by
  have h : 0xFFFF07FF#32 = 0x3F#6 ++ 0x1F#5 ++ 0x1F#5 ++ 0#5 ++ 0x1F#5 ++ 0x3F#6 := by decide
  rw [h]
  refine (fields6_and _ _ _ _ _ _ _ _ _ _ _ _).trans ?_
  simp only [BitVec.and_zero, BitVec.zero_and]
  revert fn
  decide

theorem encodeR1s_and_mask (fn : BitVec 6) (s : Reg) : encodeR1s fn s &&& 0xFC1FFFFF#32 = 0#26 ++ fn := by
  have h : 0xFC1FFFFF#32 = 0x3F#6 ++ 0#5 ++ 0x1F#5 ++ 0x1F#5 ++ 0x1F#5 ++ 0x3F#6 := by decide
  rw [h]
  refine (fields6_and _ _ _ _ _ _ _ _ _ _ _ _).trans ?_
  simp only [BitVec.and_zero, BitVec.zero_and]
  revert fn
  decide

theorem encodeI_and_mask (op : BitVec 6) (s t : Reg) (imm : Imm16) :
    encodeI op s t imm &&& 0xFC000000#32 = op ++ 0#26 := by
  have h : 0xFC000000#32 = 0x3F#6 ++ 0#5 ++ 0#5 ++ 0#16 := by decide
  rw [h]
  refine (fields4_and _ _ _ _ _ _ _ _).trans ?_
  simp only [BitVec.and_zero]
  revert op
  decide

/-! ## Bytes and words -/

@[simp] theorem wordOfBytes_bytes (w : Word) :
    wordOfBytes (byteOfWord w 0) (byteOfWord w 1) (byteOfWord w 2) (byteOfWord w 3) = w := by
  simp only [wordOfBytes, byteOfWord]
  rw [BitVec.extractLsb'_append_extractLsb'_eq_extractLsb' (by decide),
    BitVec.extractLsb'_append_extractLsb'_eq_extractLsb' (by decide),
    BitVec.extractLsb'_append_extractLsb'_eq_extractLsb' (by decide)]
  exact BitVec.extractLsb'_eq_self

/-- The decoder on a word's bytes is the decoder on the word, whatever follows. -/
@[simp] theorem decodeBytes_bytesOfWord (w : Word) (rest : List Byte) : decodeBytes (bytesOfWord w ++ rest) = decode w := by
  simp [bytesOfWord, decodeBytes]

theorem decodeTableWord_eq (nbits w : Nat) : decodeTableWord nbits w = decode (tableWords nbits w).1 := by
  simp [decodeTableWord]

/-! ## Well-formedness -/

/-- Every term of `Instr` is well formed: the operand types are exact. -/
theorem instr_wellFormed (i : Instr) : i.wellFormed = true := by
  have hr (l : List Reg) : l.all (fun r => regNumberOk r.val) = true := by
    simp [regNumberOk]
  have hm (o : Option Imm16) : (o.toList.all fun m => immediateOk m.toInt) = true := by
    cases o with
    | none => rfl
    | some m =>
      have h1 := BitVec.le_toInt (x := m)
      have h2 := BitVec.toInt_lt (x := m)
      simp only [Option.toList, List.all_cons, List.all_nil, immediateOk, Bool.and_true, Bool.and_eq_true, decide_eq_true_eq]
      omega
  simp [Instr.wellFormed, hr, hm]

end Sys2Proof.Laws
end

