-- ==== Sys2Proof/Laws/Operands.lean ====
section
/-! SUPPORT. Spec lemmas of the operand and ALU functions, in terms of `toNat` and `toInt`. -/

namespace Sys2Proof.Laws
open Sys2Proof Sys2Proof.Machine

theorem norm32_toNat (v : Int) : (norm32 v).toNat = (v % 2 ^ 32).toNat := by
  simp [norm32, BitVec.toNat_ofInt]

/-- `signed` is the two's-complement reading of the word. -/
theorem signed_eq_toInt (w : Word) : signed w = w.toInt := by
  rw [BitVec.toInt_eq_toNat_cond, signed]
  split <;> split <;> omega

theorem signed16_eq_toInt (v : Imm16) : signed16 v = v.toInt := by
  rw [BitVec.toInt_eq_toNat_cond, signed16]
  split <;> split <;> omega

theorem signed16_bounds (v : Imm16) : -32768 ≤ signed16 v ∧ signed16 v ≤ 32767 := by
  have := v.isLt
  simp only [signed16]
  split <;> omega

theorem signed_bounds (w : Word) : -2147483648 ≤ signed w ∧ signed w ≤ 2147483647 := by
  have := w.isLt
  simp only [signed]
  split <;> omega

theorem plus4_toNat (a : Word) : (plus4 a).toNat = (a.toNat + 4) % 2 ^ 32 := by
  rw [plus4, norm32_toNat]
  simp only [unsigned]
  omega

theorem plus4_eq_add (a : Word) : plus4 a = a + 4#32 := by
  apply BitVec.eq_of_toNat_eq
  rw [plus4_toNat, BitVec.toNat_add]
  rfl

theorem aligned_iff (a : Word) : aligned a = true ↔ a.toNat % 4 = 0 := by
  simp [aligned]

theorem aligned_plus4 (a : Word) : aligned (plus4 a) = aligned a := by
  have h : (plus4 a).toNat % 4 = a.toNat % 4 := by rw [plus4_toNat]; omega
  simp [aligned, h]

theorem aligned_branchTarget (pc : Word) (imm : Imm16) : aligned (branchTarget pc imm) = aligned pc := by
  have h : (branchTarget pc imm).toNat % 4 = pc.toNat % 4 := by
    rw [branchTarget, norm32_toNat]
    simp only [unsigned]
    omega
  simp [aligned, h]

/-- An aligned address is not the sentinel. -/
theorem ne_sentinel_of_aligned {a : Word} (h : aligned a = true) : a ≠ Config.sentinel := by
  intro e
  subst e
  exact absurd h (by decide)

theorem wordIndex_lt (a : Word) : wordIndex a < 2 ^ 30 := by
  have := a.isLt
  simp only [wordIndex]
  omega

theorem truthWord_eq (b : Bool) : truthWord b = if b = true then 1#32 else 0#32 := rfl

/-- The two halves of a product are the product. -/
theorem highHalf_append_lowHalf (p : BitVec 64) : highHalf p ++ lowHalf p = p := by
  simp only [highHalf, lowHalf]
  rw [BitVec.extractLsb'_append_extractLsb'_eq_extractLsb' (by decide)]
  exact BitVec.extractLsb'_eq_self

end Sys2Proof.Laws
end

