-- ==== Sys2Proof/Laws/Memory.lean ====
section
/-! SUPPORT. The laws of memory: a read after a write, the canonical form, and equal reads for equal memories. -/

namespace Sys2Proof.Laws
open Sys2Proof Sys2Proof.Machine

/-! ## One byte -/

/-- Every cell of the list lies above the address. -/
def Above (a : Nat) (m : Memory) : Prop := ∀ c ∈ m, a < c.1

theorem readByte_of_above {a : Nat} {m : Memory} (h : Above a m) : m.readByte a = Config.unlistedByte := by
  induction m with
  | nil => rfl
  | cons c rest ih =>
    have hc : a < c.1 := h c (by simp)
    have hne : c.1 ≠ a := by omega
    simp only [Memory.readByte, hne, if_false]
    exact ih fun c' hc' => h c' (by simp [hc'])

theorem above_of_rising {c : Host.Cell} {rest : Memory} (h : Memory.rising (c :: rest) = true) : Above c.1 rest := by
  simp only [Memory.rising, Bool.and_eq_true, List.all_eq_true, decide_eq_true_eq] at h
  exact fun c' hc' => h.1 c' hc'

theorem rising_tail {c : Host.Cell} {rest : Memory} (h : Memory.rising (c :: rest) = true) :
    Memory.rising rest = true := by
  simp only [Memory.rising, Bool.and_eq_true] at h
  exact h.2

theorem readByte_push_same {a : Nat} {b : Byte} {m : Memory} (h : Above a m) : (Memory.push a b m).readByte a = b := by
  unfold Memory.push
  split
  · rename_i hb
    rw [readByte_of_above h, hb]
  · simp [Memory.readByte]

theorem readByte_push_other {a x : Nat} {b : Byte} {m : Memory} (h : x ≠ a) :
    (Memory.push a b m).readByte x = m.readByte x := by
  unfold Memory.push
  split
  · rfl
  · simp [Memory.readByte, Ne.symm h]

/-- A byte just written reads back, in a memory whose addresses rise. -/
theorem readByte_writeByte_same {m : Memory} (a : Nat) (b : Byte) (h : m.rising = true) :
    (m.writeByte a b).readByte a = b := by
  induction m with
  | nil => exact readByte_push_same (by simp [Above])
  | cons c rest ih =>
    simp only [Memory.writeByte]
    split
    · rename_i hlt
      refine readByte_push_same fun c' hc' => ?_
      rcases List.mem_cons.mp hc' with rfl | hm
      · exact hlt
      · exact lt_trans hlt (above_of_rising h c' hm)
    · split
      · rename_i heq
        subst heq
        exact readByte_push_same (above_of_rising h)
      · rename_i hne
        have hne' : c.1 ≠ a := fun e => hne e.symm
        simp only [Memory.readByte, hne', if_false]
        exact ih (rising_tail h)

/-- Every other byte reads as before. -/
theorem readByte_writeByte_other {m : Memory} {a x : Nat} (b : Byte) (hx : x ≠ a) :
    (m.writeByte a b).readByte x = m.readByte x := by
  induction m with
  | nil => exact readByte_push_other hx
  | cons c rest ih =>
    simp only [Memory.writeByte]
    split
    · exact readByte_push_other hx
    · split
      · rename_i heq
        rw [readByte_push_other hx]
        have : c.1 ≠ x := fun e => hx (by omega)
        simp [Memory.readByte, this]
      · simp only [Memory.readByte, ih]

/-! ## The canonical form -/

theorem above_push {a x : Nat} {b : Byte} {m : Memory} (hx : x < a) (h : Above x m) : Above x (Memory.push a b m) := by
  unfold Memory.push
  split
  · exact h
  · intro c hc
    rcases List.mem_cons.mp hc with rfl | hm
    · exact hx
    · exact h c hm

theorem rising_push {a : Nat} {b : Byte} {m : Memory} (h : Above a m) (hr : m.rising = true) :
    (Memory.push a b m).rising = true := by
  unfold Memory.push
  split
  · exact hr
  · simp only [Memory.rising, Bool.and_eq_true, List.all_eq_true, decide_eq_true_eq]
    exact ⟨fun c hc => h c hc, hr⟩

theorem above_writeByte {m : Memory} {a x : Nat} {b : Byte} (hx : x < a) (h : Above x m) :
    Above x (m.writeByte a b) := by
  induction m with
  | nil => exact above_push hx (by simp [Above])
  | cons c rest ih =>
    have hrest : Above x rest := fun c' hc' => h c' (by simp [hc'])
    simp only [Memory.writeByte]
    split
    · exact above_push hx h
    · split
      · exact above_push hx hrest
      · intro c' hc'
        rcases List.mem_cons.mp hc' with rfl | hm
        · exact h _ (by simp)
        · exact ih hrest c' hm

theorem rising_writeByte {m : Memory} (a : Nat) (b : Byte) (h : m.rising = true) : (m.writeByte a b).rising = true := by
  induction m with
  | nil => exact rising_push (by simp [Above]) rfl
  | cons c rest ih =>
    simp only [Memory.writeByte]
    split
    · rename_i hlt
      refine rising_push (fun c' hc' => ?_) h
      rcases List.mem_cons.mp hc' with rfl | hm
      · exact hlt
      · exact lt_trans hlt (above_of_rising h c' hm)
    · split
      · rename_i heq
        subst heq
        exact rising_push (above_of_rising h) (rising_tail h)
      · rename_i hnlt hne
        have hab : Above c.1 (Memory.writeByte rest a b) := above_writeByte (by omega) (above_of_rising h)
        simp only [Memory.rising, Bool.and_eq_true, List.all_eq_true, decide_eq_true_eq]
        exact ⟨fun c' hc' => hab c' hc', ih (rising_tail h)⟩

theorem cellsOk_push {a : Nat} {b : Byte} {m : Memory} (ha : a < 2 ^ 32) (h : m.all Memory.cellOk = true) :
    (Memory.push a b m).all Memory.cellOk = true := by
  unfold Memory.push
  split
  · exact h
  · rename_i hb
    simp only [List.all_cons, Bool.and_eq_true]
    exact ⟨by simp [Memory.cellOk, hb]; omega, h⟩

theorem cellsOk_writeByte {m : Memory} {a : Nat} (b : Byte) (ha : a < 2 ^ 32) (h : m.all Memory.cellOk = true) :
    (m.writeByte a b).all Memory.cellOk = true := by
  induction m with
  | nil => exact cellsOk_push ha rfl
  | cons c rest ih =>
    have h' := h
    simp only [List.all_cons, Bool.and_eq_true] at h'
    simp only [Memory.writeByte]
    split
    · exact cellsOk_push ha h
    · split
      · exact cellsOk_push ha h'.2
      · simp only [List.all_cons, Bool.and_eq_true]
        exact ⟨h'.1, ih h'.2⟩

/-- Writing a byte keeps the canonical form. -/
theorem wf_writeByte {m : Memory} {a : Nat} (b : Byte) (ha : a < 2 ^ 32) (h : m.wf = true) : (m.writeByte a b).wf = true := by
  simp only [Memory.wf, Bool.and_eq_true] at h ⊢
  exact ⟨cellsOk_writeByte b ha h.1, rising_writeByte a b h.2⟩

theorem rising_of_wf {m : Memory} (h : m.wf = true) : m.rising = true := by
  simp only [Memory.wf, Bool.and_eq_true] at h
  exact h.2

theorem wf_nil : Memory.wf [] = true := rfl

/-- Equal memories are equal data: two canonical memories that read the same at every address are the same list. -/
theorem memory_ext {m n : Memory} (hm : m.wf = true) (hn : n.wf = true) (h : ∀ a, m.readByte a = n.readByte a) :
    m = n := by
  have tail_wf {c : Host.Cell} {r : Memory} (h : Memory.wf (c :: r) = true) :
      c.2 ≠ Config.unlistedByte ∧ Above c.1 r ∧ r.wf = true := by
    have hr := above_of_rising (rising_of_wf h)
    simp only [Memory.wf, List.all_cons, Bool.and_eq_true, Memory.cellOk, decide_eq_true_eq] at h ⊢
    exact ⟨h.1.1.2, hr, h.1.2, rising_tail h.2⟩
  induction m generalizing n with
  | nil =>
    cases n with
    | nil => rfl
    | cons c r =>
      exact absurd (h c.1).symm (by simpa [Memory.readByte] using (tail_wf hn).1)
  | cons c r ih =>
    obtain ⟨hc, hcr, hr⟩ := tail_wf hm
    cases n with
    | nil => exact absurd (h c.1) (by simpa [Memory.readByte] using hc)
    | cons d q =>
      obtain ⟨hd, hdq, hq⟩ := tail_wf hn
      have key : c.1 = d.1 := by
        rcases Nat.lt_trichotomy c.1 d.1 with hlt | he | hlt
        · have h1 := h c.1
          have h2 : Above c.1 (d :: q) := fun e he => by
            rcases List.mem_cons.mp he with rfl | hm
            · exact hlt
            · exact lt_trans hlt (hdq e hm)
          rw [readByte_of_above h2] at h1
          exact absurd h1 (by simpa [Memory.readByte] using hc)
        · exact he
        · have h1 := h d.1
          have h2 : Above d.1 (c :: r) := fun e he => by
            rcases List.mem_cons.mp he with rfl | hm
            · exact hlt
            · exact lt_trans hlt (hcr e hm)
          rw [readByte_of_above h2] at h1
          exact absurd h1.symm (by simpa [Memory.readByte] using hd)
      have hval : c.2 = d.2 := by
        have h1 := h c.1
        simpa [Memory.readByte, key] using h1
      have hcd : c = d := Prod.ext key hval
      subst hcd
      congr 1
      refine ih hr hq fun a => ?_
      by_cases ha : a = c.1
      · subst ha
        rw [readByte_of_above hcr, readByte_of_above hdq]
      · have h1 := h a
        simpa [Memory.readByte, Ne.symm ha] using h1

/-! ## One word (20_memory.md R53) -/

theorem wordBase_lt (a : Word) : wordBase a + 3 < 2 ^ 32 := by
  have := a.isLt
  simp only [wordBase, wordIndex]
  omega

/-- The address of an aligned word is the word's base. -/
theorem wordBase_aligned {a : Word} (h : aligned a = true) : wordBase a = a.toNat := by
  rw [aligned_iff] at h
  simp only [wordBase, wordIndex]
  omega

/-- The bytes of a word just written. -/
theorem readByte_memWrite_inside {m : Memory} (a v : Word) (h : m.rising = true) {k : Nat} (hk : k < 4) :
    (memWrite m a v).readByte (wordBase a + k) = byteOfWord v k := by
  have h0 := rising_writeByte (wordBase a) (byteOfWord v 0) h
  have h1 := rising_writeByte (wordBase a + 1) (byteOfWord v 1) h0
  have h2 := rising_writeByte (wordBase a + 2) (byteOfWord v 2) h1
  simp only [memWrite]
  rcases (by omega : k = 0 ∨ k = 1 ∨ k = 2 ∨ k = 3) with rfl | rfl | rfl | rfl
  · rw [readByte_writeByte_other _ (by omega), readByte_writeByte_other _ (by omega),
      readByte_writeByte_other _ (by omega)]
    exact readByte_writeByte_same _ _ h
  · rw [readByte_writeByte_other _ (by omega), readByte_writeByte_other _ (by omega)]
    exact readByte_writeByte_same _ _ h0
  · rw [readByte_writeByte_other _ (by omega)]
    exact readByte_writeByte_same _ _ h1
  · exact readByte_writeByte_same _ _ h2

/-- The bytes outside a word just written. -/
theorem readByte_memWrite_outside (m : Memory) (a v : Word) {x : Nat} (hx : x < wordBase a ∨ wordBase a + 4 ≤ x) :
    (memWrite m a v).readByte x = m.readByte x := by
  simp only [memWrite]
  rw [readByte_writeByte_other _ (by omega), readByte_writeByte_other _ (by omega),
    readByte_writeByte_other _ (by omega), readByte_writeByte_other _ (by omega)]

/-- Writing a word keeps the canonical form. -/
theorem wf_memWrite {m : Memory} (a v : Word) (h : m.wf = true) : (memWrite m a v).wf = true := by
  have hb := wordBase_lt a
  exact wf_writeByte _ (by omega) (wf_writeByte _ (by omega) (wf_writeByte _ (by omega) (wf_writeByte _ (by omega) h)))

end Sys2Proof.Laws
end

