-- ==== Sys2Proof/Laws/State.lean ====
section
/-! SUPPORT. One lemma per field per update of the state, and the register file's read-after-write laws. -/

namespace Sys2Proof.Laws
open Sys2Proof Sys2Proof.Machine

/-! ## Registers -/

@[simp] theorem reg_setReg_same (s : State) (r : Reg) (v : Word) : (s.setReg r v).reg r = v := by
  simp [State.reg, State.setReg]

theorem reg_setReg_other (s : State) {r q : Reg} (v : Word) (h : q ≠ r) : (s.setReg r v).reg q = s.reg q := by
  have h' : r.val ≠ q.val := fun e => h (Fin.ext e.symm)
  simp [State.reg, State.setReg, h']

theorem reg_setReg (s : State) (r q : Reg) (v : Word) : (s.setReg r v).reg q = if q = r then v else s.reg q := by
  by_cases h : q = r
  · subst h; simp
  · simp [h, reg_setReg_other s v h]

/-- Two register files that read the same are the same. -/
theorem regs_ext {s t : State} (h : ∀ r, s.reg r = t.reg r) : s.regs = t.regs := by
  apply Vector.ext
  intro i hi
  exact h ⟨i, hi⟩

theorem setReg_setReg_same (s : State) (r : Reg) (v w : Word) : (s.setReg r v).setReg r w = s.setReg r w := by
  simp [State.setReg]

@[simp] theorem setReg_hi (s : State) (r : Reg) (v : Word) : (s.setReg r v).hi = s.hi := rfl
@[simp] theorem setReg_lo (s : State) (r : Reg) (v : Word) : (s.setReg r v).lo = s.lo := rfl
@[simp] theorem setReg_pc (s : State) (r : Reg) (v : Word) : (s.setReg r v).pc = s.pc := rfl
@[simp] theorem setReg_cur (s : State) (r : Reg) (v : Word) : (s.setReg r v).cur = s.cur := rfl
@[simp] theorem setReg_mem (s : State) (r : Reg) (v : Word) : (s.setReg r v).mem = s.mem := rfl
@[simp] theorem setReg_out (s : State) (r : Reg) (v : Word) : (s.setReg r v).out = s.out := rfl
@[simp] theorem setReg_input (s : State) (r : Reg) (v : Word) : (s.setReg r v).input = s.input := rfl
@[simp] theorem setReg_status (s : State) (r : Reg) (v : Word) : (s.setReg r v).status = s.status := rfl
@[simp] theorem setReg_debugger (s : State) (r : Reg) (v : Word) : (s.setReg r v).debugger = s.debugger := rfl

/-! ## HI and LO -/

@[simp] theorem setHiLo_hi (s : State) (h l : Word) : (s.setHiLo h l).hi = h := rfl
@[simp] theorem setHiLo_lo (s : State) (h l : Word) : (s.setHiLo h l).lo = l := rfl
@[simp] theorem setHiLo_reg (s : State) (h l : Word) (r : Reg) : (s.setHiLo h l).reg r = s.reg r := rfl
@[simp] theorem setHiLo_pc (s : State) (h l : Word) : (s.setHiLo h l).pc = s.pc := rfl
@[simp] theorem setHiLo_cur (s : State) (h l : Word) : (s.setHiLo h l).cur = s.cur := rfl
@[simp] theorem setHiLo_mem (s : State) (h l : Word) : (s.setHiLo h l).mem = s.mem := rfl
@[simp] theorem setHiLo_out (s : State) (h l : Word) : (s.setHiLo h l).out = s.out := rfl
@[simp] theorem setHiLo_input (s : State) (h l : Word) : (s.setHiLo h l).input = s.input := rfl
@[simp] theorem setHiLo_status (s : State) (h l : Word) : (s.setHiLo h l).status = s.status := rfl
@[simp] theorem setHiLo_debugger (s : State) (h l : Word) : (s.setHiLo h l).debugger = s.debugger := rfl

/-! ## The program counter -/

@[simp] theorem setPc_pc (s : State) (a : Word) : (s.setPc a).pc = a := rfl
@[simp] theorem setPc_reg (s : State) (a : Word) (r : Reg) : (s.setPc a).reg r = s.reg r := rfl
@[simp] theorem setPc_hi (s : State) (a : Word) : (s.setPc a).hi = s.hi := rfl
@[simp] theorem setPc_lo (s : State) (a : Word) : (s.setPc a).lo = s.lo := rfl
@[simp] theorem setPc_cur (s : State) (a : Word) : (s.setPc a).cur = s.cur := rfl
@[simp] theorem setPc_mem (s : State) (a : Word) : (s.setPc a).mem = s.mem := rfl
@[simp] theorem setPc_out (s : State) (a : Word) : (s.setPc a).out = s.out := rfl
@[simp] theorem setPc_input (s : State) (a : Word) : (s.setPc a).input = s.input := rfl
@[simp] theorem setPc_status (s : State) (a : Word) : (s.setPc a).status = s.status := rfl
@[simp] theorem setPc_debugger (s : State) (a : Word) : (s.setPc a).debugger = s.debugger := rfl

/-! ## Memory and the output stream -/

@[simp] theorem writeWord_mem (s : State) (a v : Word) : (s.writeWord a v).mem = memWrite s.mem a v := rfl
@[simp] theorem writeWord_reg (s : State) (a v : Word) (r : Reg) : (s.writeWord a v).reg r = s.reg r := rfl
@[simp] theorem writeWord_hi (s : State) (a v : Word) : (s.writeWord a v).hi = s.hi := rfl
@[simp] theorem writeWord_lo (s : State) (a v : Word) : (s.writeWord a v).lo = s.lo := rfl
@[simp] theorem writeWord_pc (s : State) (a v : Word) : (s.writeWord a v).pc = s.pc := rfl
@[simp] theorem writeWord_cur (s : State) (a v : Word) : (s.writeWord a v).cur = s.cur := rfl
@[simp] theorem writeWord_out (s : State) (a v : Word) : (s.writeWord a v).out = s.out := rfl
@[simp] theorem writeWord_input (s : State) (a v : Word) : (s.writeWord a v).input = s.input := rfl
@[simp] theorem writeWord_status (s : State) (a v : Word) : (s.writeWord a v).status = s.status := rfl
@[simp] theorem writeWord_debugger (s : State) (a v : Word) : (s.writeWord a v).debugger = s.debugger := rfl

@[simp] theorem output_out (s : State) (v : Word) : (s.output v).out = s.out ++ [byteOfWord v 3] := rfl
@[simp] theorem output_reg (s : State) (v : Word) (r : Reg) : (s.output v).reg r = s.reg r := rfl
@[simp] theorem output_hi (s : State) (v : Word) : (s.output v).hi = s.hi := rfl
@[simp] theorem output_lo (s : State) (v : Word) : (s.output v).lo = s.lo := rfl
@[simp] theorem output_pc (s : State) (v : Word) : (s.output v).pc = s.pc := rfl
@[simp] theorem output_cur (s : State) (v : Word) : (s.output v).cur = s.cur := rfl
@[simp] theorem output_mem (s : State) (v : Word) : (s.output v).mem = s.mem := rfl
@[simp] theorem output_input (s : State) (v : Word) : (s.output v).input = s.input := rfl
@[simp] theorem output_status (s : State) (v : Word) : (s.output v).status = s.status := rfl
@[simp] theorem output_debugger (s : State) (v : Word) : (s.output v).debugger = s.debugger := rfl

/-! ## Faults, the end of a run, the debugger -/

@[simp] theorem takeFault_status (s : State) (f : FaultRecord) : (s.takeFault f).status = .faulted f := rfl
@[simp] theorem takeFault_reg (s : State) (f : FaultRecord) (r : Reg) : (s.takeFault f).reg r = s.reg r := rfl
@[simp] theorem takeFault_hi (s : State) (f : FaultRecord) : (s.takeFault f).hi = s.hi := rfl
@[simp] theorem takeFault_lo (s : State) (f : FaultRecord) : (s.takeFault f).lo = s.lo := rfl
@[simp] theorem takeFault_pc (s : State) (f : FaultRecord) : (s.takeFault f).pc = s.pc := rfl
@[simp] theorem takeFault_cur (s : State) (f : FaultRecord) : (s.takeFault f).cur = s.cur := rfl
@[simp] theorem takeFault_mem (s : State) (f : FaultRecord) : (s.takeFault f).mem = s.mem := rfl
@[simp] theorem takeFault_out (s : State) (f : FaultRecord) : (s.takeFault f).out = s.out := rfl
@[simp] theorem takeFault_input (s : State) (f : FaultRecord) : (s.takeFault f).input = s.input := rfl
@[simp] theorem takeFault_debugger (s : State) (f : FaultRecord) : (s.takeFault f).debugger = s.debugger := rfl

@[simp] theorem terminate_status (s : State) : s.terminate.status = .terminated := rfl
@[simp] theorem terminate_reg (s : State) (r : Reg) : s.terminate.reg r = s.reg r := rfl
@[simp] theorem terminate_pc (s : State) : s.terminate.pc = s.pc := rfl
@[simp] theorem terminate_cur (s : State) : s.terminate.cur = s.cur := rfl
@[simp] theorem terminate_mem (s : State) : s.terminate.mem = s.mem := rfl
@[simp] theorem terminate_out (s : State) : s.terminate.out = s.out := rfl
@[simp] theorem terminate_input (s : State) : s.terminate.input = s.input := rfl
@[simp] theorem terminate_debugger (s : State) : s.terminate.debugger = s.debugger := rfl

@[simp] theorem withDebugger_debugger (s : State) (f : Debugger → Debugger) :
    (s.withDebugger f).debugger = s.debugger.map f := rfl
@[simp] theorem withDebugger_reg (s : State) (f : Debugger → Debugger) (r : Reg) : (s.withDebugger f).reg r = s.reg r := rfl
@[simp] theorem withDebugger_hi (s : State) (f : Debugger → Debugger) : (s.withDebugger f).hi = s.hi := rfl
@[simp] theorem withDebugger_lo (s : State) (f : Debugger → Debugger) : (s.withDebugger f).lo = s.lo := rfl
@[simp] theorem withDebugger_pc (s : State) (f : Debugger → Debugger) : (s.withDebugger f).pc = s.pc := rfl
@[simp] theorem withDebugger_cur (s : State) (f : Debugger → Debugger) : (s.withDebugger f).cur = s.cur := rfl
@[simp] theorem withDebugger_mem (s : State) (f : Debugger → Debugger) : (s.withDebugger f).mem = s.mem := rfl
@[simp] theorem withDebugger_out (s : State) (f : Debugger → Debugger) : (s.withDebugger f).out = s.out := rfl
@[simp] theorem withDebugger_input (s : State) (f : Debugger → Debugger) : (s.withDebugger f).input = s.input := rfl
@[simp] theorem withDebugger_status (s : State) (f : Debugger → Debugger) : (s.withDebugger f).status = s.status := rfl

/-- Without a debugger there is nothing to change. -/
theorem withDebugger_none {s : State} (h : s.debugger = none) (f : Debugger → Debugger) : s.withDebugger f = s := by
  cases s
  simp_all [State.withDebugger]

/-! ## The common prefix (10_state.md R33 steps 5 to 7) -/

@[simp] theorem beginInstr_pc (s : State) : s.beginInstr.pc = plus4 s.pc := rfl
@[simp] theorem beginInstr_cur (s : State) : s.beginInstr.cur = s.pc := rfl
@[simp] theorem beginInstr_hi (s : State) : s.beginInstr.hi = s.hi := rfl
@[simp] theorem beginInstr_lo (s : State) : s.beginInstr.lo = s.lo := rfl
@[simp] theorem beginInstr_mem (s : State) : s.beginInstr.mem = s.mem := rfl
@[simp] theorem beginInstr_out (s : State) : s.beginInstr.out = s.out := rfl
@[simp] theorem beginInstr_input (s : State) : s.beginInstr.input = s.input := rfl
@[simp] theorem beginInstr_status (s : State) : s.beginInstr.status = s.status := rfl
@[simp] theorem beginInstr_debugger (s : State) : s.beginInstr.debugger = s.debugger := rfl

@[simp] theorem beginInstr_reg_zero (s : State) : s.beginInstr.reg 0 = 0#32 := reg_setReg_same _ _ _

theorem beginInstr_reg (s : State) {r : Reg} (h : r ≠ 0) : s.beginInstr.reg r = s.reg r :=
  reg_setReg_other _ _ h

end Sys2Proof.Laws
end

