-- ==== Sys2Proof/Laws/Ops.lean ====
section
/-! SUPPORT. Spec lemmas of the shared operations and of each meaning: what each can do, said once. -/

namespace Sys2Proof.Laws
open Sys2Proof Sys2Proof.Machine

/-! ## Outcomes -/

@[simp] theorem onNext_next (s : State) (f : State → Result) : onNext (.next s) f = f s := rfl
@[simp] theorem onNext_fault (r : Fault) (f : State → Result) : onNext (.fault r) f = .fault r := rfl
@[simp] theorem onNext_refused (r : Refusal) (f : State → Result) : onNext (.refused r) f = .refused r := rfl

theorem onNext_eq_next {o : Result} {f : State → Result} {t : State} (h : onNext o f = .next t) :
    ∃ s, o = .next s ∧ f s = .next t := by
  cases o with
  | next s => exact ⟨s, rfl, h⟩
  | fault r => simp at h
  | refused r => simp at h

@[simp] theorem next_inj {s t : State} : ((.next s : Result) = .next t) ↔ s = t :=
  ⟨fun h => by injection h, fun h => by rw [h]⟩

/-! ## The I/O decoder -/

theorem classify_load (a : Word) : classify a .load = if a = Config.inputAddr then .input else .memory := rfl
theorem classify_store (a : Word) : classify a .store = if a = Config.outputAddr then .output else .memory := rfl

/-- A load from memory. -/
theorem loadWord_memory {a : Word} {s : State} (ha : aligned a = true) (hp : a ≠ Config.inputAddr) :
    loadWord a s = .value (s.readWord a) s := by
  simp [loadWord, ha, classify_load, hp]

/-- A load from the input port. -/
theorem loadWord_input (s : State) : loadWord Config.inputAddr s = inputAccess s := rfl

/-- A misaligned load. -/
theorem loadWord_misaligned {a : Word} {s : State} (ha : aligned a = false) :
    loadWord a s = .raises (.alignment .load a s.cur) s := by
  simp [loadWord, ha]

/-- Everything a load can come to. -/
theorem loadWord_cases (a : Word) (s : State) :
    (aligned a = false ∧ loadWord a s = .raises (.alignment .load a s.cur) s) ∨
    (aligned a = true ∧ a ≠ Config.inputAddr ∧ loadWord a s = .value (s.readWord a) s) ∨
    (a = Config.inputAddr ∧ s.input = [] ∧ loadWord a s = .waits) ∨
    (a = Config.inputAddr ∧ ∃ r rest c, s.input = r :: rest ∧ r.byte? = some c ∧
      loadWord a s = .value (zext32 c) { s with input := rest }) ∨
    (a = Config.inputAddr ∧ ∃ r rest, s.input = r :: rest ∧ r.byte? = none ∧
      loadWord a s = .raises (.io s.cur r) { s with input := rest }) := by
  cases ha : aligned a with
  | false => exact .inl ⟨rfl, loadWord_misaligned ha⟩
  | true =>
    by_cases hp : a = Config.inputAddr
    · subst hp
      rw [loadWord_input, inputAccess]
      cases hi : s.input with
      | nil => simp
      | cons r rest =>
        cases hb : r.byte? with
        | none => simp [hb]
        | some c => simp [hb]
    · exact .inr (.inl ⟨rfl, hp, loadWord_memory ha hp⟩)

/-- A store to memory. -/
theorem storeWord_memory {a : Word} (v : Word) (s : State) (ha : aligned a = true) (hp : a ≠ Config.outputAddr) :
    storeWord a v s = .next (s.writeWord a v) := by
  simp [storeWord, ha, classify_store, hp]

/-- A store to the output port. -/
theorem storeWord_output (v : Word) (s : State) : storeWord Config.outputAddr v s = .next (s.output v) := rfl

/-- A misaligned store. -/
theorem storeWord_misaligned {a : Word} (v : Word) (s : State) (ha : aligned a = false) :
    storeWord a v s = raise (.alignment .store a s.cur) s := by
  simp [storeWord, ha]

/-- Everything a store can come to. -/
theorem storeWord_cases (a v : Word) (s : State) :
    (aligned a = false ∧ storeWord a v s = .next (s.takeFault (.alignment .store a s.cur))) ∨
    (aligned a = true ∧ a ≠ Config.outputAddr ∧ storeWord a v s = .next (s.writeWord a v)) ∨
    (a = Config.outputAddr ∧ storeWord a v s = .next (s.output v)) := by
  cases ha : aligned a with
  | false => exact .inl ⟨rfl, storeWord_misaligned v s ha⟩
  | true =>
    by_cases hp : a = Config.outputAddr
    · subst hp
      exact .inr (.inr ⟨rfl, storeWord_output v s⟩)
    · exact .inr (.inl ⟨rfl, hp, storeWord_memory v s ha hp⟩)

/-! ## Command arguments and commands -/

/-- An address prints and reads back. Cite `apply_patchMemory` and `apply_toggleBreak` with it: unfolding `Command.apply`
at a literal argument makes the kernel count down from 2^32. -/
theorem address?_num (a : Word) : (Arg.num a.toNat).address? = some a := by
  have := a.isLt
  simp only [Arg.address?, norm32]
  rw [if_pos (by omega)]
  simp

theorem reg?_num (r : Reg) : (Arg.num r.val).reg? = some r := by
  have := r.isLt
  simp only [Arg.reg?]
  rw [if_pos (by omega)]
  simp

theorem value?_num (v : Int) : (Arg.num v).value? = some (norm32 v) := rfl

theorem apply_patchMemory {start : Arg} {a : Word} (h : start.address? = some a) (entries : List Int) (s : State) :
    (Command.patchMemory start entries).apply s = s.writeEntries a entries := by
  simp only [Command.apply, h]

theorem apply_toggleBreak {arg : Arg} {a : Word} (h : arg.address? = some a) (s : State) :
    (Command.toggleBreak (some arg)).apply s = s.toggleBreakAt a := by
  simp only [Command.apply, h]

theorem apply_patchRegister {reg value : Arg} {r : Reg} {v : Word} (hr : reg.reg? = some r) (hv : value.value? = some v)
    (s : State) : (Command.patchRegister reg value).apply s = s.setReg r v := by
  simp only [Command.apply, hr, hv]

/-! ## The meanings -/

theorem exec_add (d s t : Reg) (σ : State) : exec (.add d s t) σ = .next (σ.setReg d (add32 (σ.reg s) (σ.reg t))) := rfl
theorem exec_sub (d s t : Reg) (σ : State) : exec (.sub d s t) σ = .next (σ.setReg d (sub32 (σ.reg s) (σ.reg t))) := rfl
theorem exec_slt (d s t : Reg) (σ : State) : exec (.slt d s t) σ = .next (σ.setReg d (slt32 (σ.reg s) (σ.reg t))) := rfl
theorem exec_sltu (d s t : Reg) (σ : State) : exec (.sltu d s t) σ = .next (σ.setReg d (sltu32 (σ.reg s) (σ.reg t))) := rfl
theorem exec_mfhi (d : Reg) (σ : State) : exec (.mfhi d) σ = .next (σ.setReg d σ.hi) := rfl
theorem exec_mflo (d : Reg) (σ : State) : exec (.mflo d) σ = .next (σ.setReg d σ.lo) := rfl

theorem exec_mult (s t : Reg) (σ : State) :
    exec (.mult s t) σ = .next (σ.setHiLo (highHalf (mul64s (σ.reg s) (σ.reg t))) (lowHalf (mul64s (σ.reg s) (σ.reg t)))) :=
  rfl

theorem exec_multu (s t : Reg) (σ : State) :
    exec (.multu s t) σ = .next (σ.setHiLo (highHalf (mul64u (σ.reg s) (σ.reg t))) (lowHalf (mul64u (σ.reg s) (σ.reg t)))) :=
  rfl

theorem exec_div (s t : Reg) (σ : State) :
    exec (.div s t) σ =
      .next (if σ.reg t = 0#32 then σ.takeFault (.divideByZero σ.cur)
        else σ.setHiLo (divmodS (σ.reg s) (σ.reg t)).remainder (divmodS (σ.reg s) (σ.reg t)).quotient) := by
  simp only [exec, execDiv, divideBy, raise]
  split <;> rfl

theorem exec_divu (s t : Reg) (σ : State) :
    exec (.divu s t) σ =
      .next (if σ.reg t = 0#32 then σ.takeFault (.divideByZero σ.cur)
        else σ.setHiLo (divmodU (σ.reg s) (σ.reg t)).remainder (divmodU (σ.reg s) (σ.reg t)).quotient) := by
  simp only [exec, execDivu, divideBy, raise]
  split <;> rfl

theorem exec_lis (d : Reg) (σ : State) :
    exec (.lis d) σ = .next ((σ.setReg d (σ.readWord σ.pc)).setPc (plus4 σ.pc)) := rfl

theorem exec_lw (t : Reg) (imm : Imm16) (s : Reg) (σ : State) :
    exec (.lw t imm s) σ = execLw t imm s σ := rfl

/-- Everything a `lw` can do. -/
theorem execLw_cases (rt : Reg) (imm : Imm16) (rs : Reg) (σ : State) :
    let ea := effectiveAddress (σ.reg rs) imm
    (aligned ea = false ∧ execLw rt imm rs σ = .next (σ.takeFault (.alignment .load ea σ.cur))) ∨
    (aligned ea = true ∧ ea ≠ Config.inputAddr ∧ execLw rt imm rs σ = .next (σ.setReg rt (σ.readWord ea))) ∨
    (ea = Config.inputAddr ∧ σ.input = [] ∧ execLw rt imm rs σ = .fault .awaitingInput) ∨
    (ea = Config.inputAddr ∧ ∃ r rest c, σ.input = r :: rest ∧ r.byte? = some c ∧
      execLw rt imm rs σ = .next (State.setReg { σ with input := rest } rt (zext32 c))) ∨
    (ea = Config.inputAddr ∧ ∃ r rest, σ.input = r :: rest ∧ r.byte? = none ∧
      execLw rt imm rs σ = .next (State.takeFault { σ with input := rest } (.io σ.cur r))) := by
  intro ea
  have h := loadWord_cases ea σ
  simp only [execLw]
  rcases h with ⟨h1, h2⟩ | ⟨h1, h2, h3⟩ | ⟨h1, h2, h3⟩ | ⟨h1, r, rest, c, h2, h3, h4⟩ | ⟨h1, r, rest, h2, h3, h4⟩
  · exact .inl ⟨h1, by rw [h2]; rfl⟩
  · exact .inr (.inl ⟨h1, h2, by rw [h3]⟩)
  · exact .inr (.inr (.inl ⟨h1, h2, by rw [h3]⟩))
  · exact .inr (.inr (.inr (.inl ⟨h1, r, rest, c, h2, h3, by rw [h4]⟩)))
  · exact .inr (.inr (.inr (.inr ⟨h1, r, rest, h2, h3, by rw [h4]; rfl⟩)))

theorem exec_sw (t : Reg) (imm : Imm16) (s : Reg) (σ : State) :
    exec (.sw t imm s) σ = storeWord (effectiveAddress (σ.reg s) imm) (σ.reg t) σ := rfl

theorem exec_beq (s t : Reg) (imm : Imm16) (σ : State) :
    exec (.beq s t imm) σ = .next (if σ.reg s = σ.reg t then σ.setPc (branchTarget σ.pc imm) else σ) := by
  simp only [exec, execBeq, branchIf, sameWord, beq_iff_eq]

theorem exec_bne (s t : Reg) (imm : Imm16) (σ : State) :
    exec (.bne s t imm) σ = .next (if σ.reg s = σ.reg t then σ else σ.setPc (branchTarget σ.pc imm)) := by
  by_cases h : σ.reg s = σ.reg t
  · simp [exec, execBne, branchIf, sameWord, h]
  · simp [exec, execBne, branchIf, sameWord, h]

theorem exec_jr (s : Reg) (σ : State) : exec (.jr s) σ = .next (σ.setPc (σ.reg s)) := rfl

theorem exec_jalr (s : Reg) (σ : State) :
    exec (.jalr s) σ = .next ((σ.setReg Config.linkReg σ.pc).setPc (σ.reg s)) := rfl

end Sys2Proof.Laws
end

