-- ==== Sys2Proof/Laws/PerInstr.lean ====
section
/-! SUPPORT. The family `EncodeRow`: each instruction's word is accepted by a row of the decoder's table that reads the
instruction back (30_encoding.md R91). One lemma per constructor. -/

namespace Sys2Proof.Laws.EncodeRow
open Sys2Proof Sys2Proof.Laws

/-- Some row of the table accepts the instruction's word and builds the instruction from it. -/
def Statement (i : Instr) : Prop :=
  ∃ (n : Nat) (r : Row), rows[n]? = some r ∧ r.accepts (encode i) = true ∧ r.build (encode i) = i

theorem add (d s t : Reg) : Statement (.add d s t) :=
  ⟨0, _, rfl, by simp [Row.accepts, encode, encodeR3_and_mask], by simp [encode]⟩

theorem sub (d s t : Reg) : Statement (.sub d s t) :=
  ⟨1, _, rfl, by simp [Row.accepts, encode, encodeR3_and_mask], by simp [encode]⟩

theorem mult (s t : Reg) : Statement (.mult s t) :=
  ⟨4, _, rfl, by simp [Row.accepts, encode, encodeR2_and_mask], by simp [encode]⟩

theorem multu (s t : Reg) : Statement (.multu s t) :=
  ⟨5, _, rfl, by simp [Row.accepts, encode, encodeR2_and_mask], by simp [encode]⟩

theorem div (s t : Reg) : Statement (.div s t) :=
  ⟨6, _, rfl, by simp [Row.accepts, encode, encodeR2_and_mask], by simp [encode]⟩

theorem divu (s t : Reg) : Statement (.divu s t) :=
  ⟨7, _, rfl, by simp [Row.accepts, encode, encodeR2_and_mask], by simp [encode]⟩

theorem mfhi (d : Reg) : Statement (.mfhi d) :=
  ⟨8, _, rfl, by simp [Row.accepts, encode, encodeR1d_and_mask], by simp [encode]⟩

theorem mflo (d : Reg) : Statement (.mflo d) :=
  ⟨9, _, rfl, by simp [Row.accepts, encode, encodeR1d_and_mask], by simp [encode]⟩

theorem lis (d : Reg) : Statement (.lis d) :=
  ⟨10, _, rfl, by simp [Row.accepts, encode, encodeR1d_and_mask], by simp [encode]⟩

theorem lw (t : Reg) (imm : Imm16) (s : Reg) : Statement (.lw t imm s) :=
  ⟨13, _, rfl, by simp [Row.accepts, encode, encodeI_and_mask], by simp [encode]⟩

theorem sw (t : Reg) (imm : Imm16) (s : Reg) : Statement (.sw t imm s) :=
  ⟨14, _, rfl, by simp [Row.accepts, encode, encodeI_and_mask], by simp [encode]⟩

theorem slt (d s t : Reg) : Statement (.slt d s t) :=
  ⟨2, _, rfl, by simp [Row.accepts, encode, encodeR3_and_mask], by simp [encode]⟩

theorem sltu (d s t : Reg) : Statement (.sltu d s t) :=
  ⟨3, _, rfl, by simp [Row.accepts, encode, encodeR3_and_mask], by simp [encode]⟩

theorem beq (s t : Reg) (imm : Imm16) : Statement (.beq s t imm) :=
  ⟨15, _, rfl, by simp [Row.accepts, encode, encodeI_and_mask], by simp [encode]⟩

theorem bne (s t : Reg) (imm : Imm16) : Statement (.bne s t imm) :=
  ⟨16, _, rfl, by simp [Row.accepts, encode, encodeI_and_mask], by simp [encode]⟩

theorem jr (s : Reg) : Statement (.jr s) :=
  ⟨11, _, rfl, by simp [Row.accepts, encode, encodeR1s_and_mask], by simp [encode]⟩

theorem jalr (s : Reg) : Statement (.jalr s) :=
  ⟨12, _, rfl, by simp [Row.accepts, encode, encodeR1s_and_mask], by simp [encode]⟩

/-- The statement for every instruction, from the lemma of its constructor. -/
theorem all (i : Instr) : Statement i := by
  cases i with
  | add d s t => exact add d s t
  | sub d s t => exact sub d s t
  | mult s t => exact mult s t
  | multu s t => exact multu s t
  | div s t => exact div s t
  | divu s t => exact divu s t
  | mfhi d => exact mfhi d
  | mflo d => exact mflo d
  | lis d => exact lis d
  | lw t imm s => exact lw t imm s
  | sw t imm s => exact sw t imm s
  | slt d s t => exact slt d s t
  | sltu d s t => exact sltu d s t
  | beq s t imm => exact beq s t imm
  | bne s t imm => exact bne s t imm
  | jr s => exact jr s
  | jalr s => exact jalr s

end Sys2Proof.Laws.EncodeRow
end

