-- ==== Sys2Proof/Laws/Step.lean ====
section
/-! SUPPORT. What one step can do: the core's cycle, the debugger's moves, and the session's step, said once each. -/

namespace Sys2Proof.Laws
open Sys2Proof Sys2Proof.Machine

/-! ## The core's cycle (10_state.md R33) -/

theorem cycle_sentinel {s : State} (h : s.pc = Config.sentinel) : cycle s = .next s.terminate := by
  simp [cycle, h]

theorem cycle_misaligned {s : State} (h : s.pc ≠ Config.sentinel) (ha : aligned s.pc = false) :
    cycle s = .next (s.takeFault (.alignment .fetch s.pc s.cur)) := by
  simp [cycle, h, ha, raise]

theorem cycle_undecodable {s : State} (ha : aligned s.pc = true) (hd : decode s.fetchWord = none) :
    cycle s = .next (s.beginInstr.takeFault (.decode s.fetchWord s.pc)) := by
  simp [cycle, ne_sentinel_of_aligned ha, ha, decodeAndExecute, hd, raise]

theorem cycle_exec {s : State} {i : Instr} (ha : aligned s.pc = true) (hd : decode s.fetchWord = some i) :
    cycle s = exec i s.beginInstr := by
  simp [cycle, ne_sentinel_of_aligned ha, ha, decodeAndExecute, hd]

/-- Everything one step of the core can do. -/
theorem cycle_cases (s : State) :
    (s.pc = Config.sentinel ∧ cycle s = .next s.terminate) ∨
    (s.pc ≠ Config.sentinel ∧ aligned s.pc = false ∧ cycle s = .next (s.takeFault (.alignment .fetch s.pc s.cur))) ∨
    (aligned s.pc = true ∧ decode s.fetchWord = none ∧
      cycle s = .next (s.beginInstr.takeFault (.decode s.fetchWord s.pc))) ∨
    (∃ i, aligned s.pc = true ∧ decode s.fetchWord = some i ∧ cycle s = exec i s.beginInstr) := by
  by_cases hs : s.pc = Config.sentinel
  · exact .inl ⟨hs, cycle_sentinel hs⟩
  · cases ha : aligned s.pc with
    | false => exact .inr (.inl ⟨hs, rfl, cycle_misaligned hs ha⟩)
    | true =>
      cases hd : decode s.fetchWord with
      | none => exact .inr (.inr (.inl ⟨rfl, rfl, cycle_undecodable ha hd⟩))
      | some i => exact .inr (.inr (.inr ⟨i, rfl, rfl, cycle_exec ha hd⟩))

/-! ## The session's step -/

@[simp] theorem stepIfRunning_running {s : State} (h : s.status = .running) (go : State → Result) :
    stepIfRunning s go = go s := by
  simp [stepIfRunning, h]

theorem stepIfRunning_eq_next {s t : State} {go : State → Result} (h : stepIfRunning s go = .next t) :
    s.status = .running ∧ go s = .next t := by
  unfold stepIfRunning at h
  split at h
  · exact ⟨‹_›, h⟩
  · simp at h
  · simp at h

/-- Without a debugger a running machine takes the core's step. -/
theorem step_alone {s : State} (hr : s.status = .running) (hd : s.debugger = none) : step s = cycle s := by
  simp [step, sessionStep, hd, hr]

/-- Under a running debugger a running machine takes the core's move. -/
theorem step_under {s : State} {d : Debugger} (hr : s.status = .running) (hd : s.debugger = some d)
    (hm : d.mode = .running) : step s = coreMove d s := by
  simp [step, sessionStep, hd, hm, hr]

/-- A paused debugger reads its next command. -/
theorem step_paused {s : State} {d : Debugger} (hd : s.debugger = some d) (hm : d.mode = .paused) :
    step s = commandMove d s := by
  simp [step, sessionStep, hd, hm]

/-- Everything one step of the machine can be. -/
theorem step_cases {s t : State} (h : step s = .next t) :
    (s.debugger = none ∧ s.status = .running ∧ cycle s = .next t) ∨
    (∃ d, s.debugger = some d ∧ d.mode = .running ∧ s.status = .running ∧ coreMove d s = .next t) ∨
    (∃ d c rest, s.debugger = some d ∧ d.mode = .paused ∧ d.commands = c :: rest ∧
      runCommand c (s.withDebugger fun d => { d with commands := rest }) = .next t) := by
  unfold step sessionStep at h
  split at h
  · obtain ⟨hr, hc⟩ := stepIfRunning_eq_next h
    exact .inl ⟨‹_›, hr, hc⟩
  · rename_i d hd
    split at h
    · obtain ⟨hr, hc⟩ := stepIfRunning_eq_next h
      exact .inr (.inl ⟨d, hd, ‹_›, hr, hc⟩)
    · unfold commandMove at h
      split at h
      · simp at h
      · rename_i c rest hc
        exact .inr (.inr ⟨d, c, rest, hd, ‹_›, hc, h⟩)
    · simp at h

/-- Everything the core's move under a debugger can be: a pause, or a step of the core that pauses if it ended the run. -/
theorem coreMove_cases {d : Debugger} {s t : State} (h : coreMove d s = .next t) :
    (s.pc ≠ Config.sentinel ∧ d.stopsAt s.pc = true ∧ t = s.pause) ∨
    (∃ u, cycle s.passBreakpoint = .next u ∧ t = pauseIfEnded u) := by
  unfold coreMove at h
  split at h
  · rename_i hc
    simp only [next_inj] at h
    exact .inl ⟨hc.1, hc.2, h.symm⟩
  · obtain ⟨u, hu, ht⟩ := onNext_eq_next h
    simp only [next_inj] at ht
    exact .inr ⟨u, hu, ht.symm⟩

/-- Everything a command can do: one step of the core and a pause (`step-into`), or its effect. -/
theorem runCommand_cases {c : Command} {s t : State} (h : runCommand c s = .next t) :
    (c = .stepInto ∧ s.status = .running ∧ ∃ u, cycle s = .next u ∧ t = u.pause) ∨
    (¬ (c = .stepInto ∧ s.status = .running) ∧ t = c.apply s) := by
  unfold runCommand at h
  split at h
  · rename_i hc
    obtain ⟨u, hu, ht⟩ := onNext_eq_next h
    simp only [next_inj] at ht
    exact .inl ⟨hc.1, hc.2, u, hu, ht.symm⟩
  · simp only [next_inj] at h
    exact .inr ⟨‹_›, h.symm⟩

/-! ## Placing one instruction -/

theorem fetchAddress_toNat (pc : Word) : (fetchAddress pc).toNat = 4 * (pc.toNat / 4) := by
  have := pc.isLt
  rw [fetchAddress, norm32_toNat]
  simp only [wordIndex]
  omega

theorem aligned_fetchAddress (pc : Word) : aligned (fetchAddress pc) = true := by
  rw [aligned_iff, fetchAddress_toNat]
  omega

end Sys2Proof.Laws
end

