-- ==== Sys2Proof/Tests/Slice0.lean ====
section
/-! SUPPORT. Tests on fixed values: the well-formedness smoke tests, one word per constructor written out from the spec's
encoding, the spec's vectors (95_test_vectors.md), and for each obligation with hypotheses a state and operands that meet
them. -/

namespace Sys2Proof.Tests
open Sys2Proof Sys2Proof.Machine

/-! ## Helpers -/

/-- A running machine without a debugger: `pc`, some registers, some memory words. -/
def st (pc : Word) (rs : List (Reg × Word)) (ws : List (Word × Word)) : State :=
  { State.reset with
    pc := pc
    regs := rs.foldl (fun v p => v.set p.1.val p.2) resetRegs
    mem := ws.foldl (fun m p => memWrite m p.1 p.2) [] }

/-- The same with input answers. -/
def stIn (pc : Word) (rs : List (Reg × Word)) (ws : List (Word × Word)) (input : List InputAnswer) : State :=
  { st pc rs ws with input := input }

/-- A debugger with some breakpoints and commands. -/
def dbg (mode : DebugMode) (resume : Bool) (breakpoints : List Nat) (commands : List Command) : Debugger :=
  { breakpoints := breakpoints, tempBreak := none, resumeFlag := resume, tracing := false, mode := mode, commands := commands }

/-- The same under that debugger. -/
def stDbg (d : Debugger) (pc : Word) (rs : List (Reg × Word)) (ws : List (Word × Word)) : State :=
  { st pc rs ws with debugger := some d }

/-- The answer is a next state that passes the test. -/
def next? (o : Result) (p : State → Bool) : Bool :=
  match o with
  | .next t => p t
  | .fault _ => false
  | .refused _ => false

/-- The answer is this stop. -/
def stops? (o : Result) (f : Fault) : Bool :=
  match o with
  | .next _ => false
  | .fault g => f == g
  | .refused _ => false

/-! ## Well-formedness: an ill-formed term for each check -/

theorem test_wf_register_32 : regOfNumber? 32 = none ∧ regNumberOk 32 = false ∧ regOfNumber? 31 = some 31 := by decide
theorem test_wf_immediate : immOfInt? 32768 = none ∧ immOfInt? (-32769) = none ∧ immOfInt? (-32768) = some 0x8000#16
    ∧ immOfInt? 32767 = some 0x7FFF#16 := by decide
theorem test_wf_instruction : Instr.wellFormed (.lw 31 0x8000#16 0) = true := by decide
theorem test_wf_load_offset : loadOffsetOk 2#32 = false ∧ loadOffsetOk 4#32 = true := by decide
theorem test_wf_image_fits : imageFits 2 0xFFFFFFFC#32 = false ∧ imageFits 1 0xFFFFFFFC#32 = true := by decide
theorem test_wf_binary_length : binaryLengthOk (List.replicate 15 0#8) = false := by decide
theorem test_wf_hex_length : hexLengthOk (List.replicate 31 '0') = false := by decide
theorem test_wf_hex_digit : hexDigitsOk ['0', 'g'] = false ∧ hexDigitsOk ['0', 'f', 'F', '9'] = true := by decide
theorem test_wf_arguments : Arg.reg? (.num 32) = none ∧ Arg.reg? (.num (-1)) = none ∧ Arg.address? (.num (-1)) = none
    ∧ Arg.address? (.num 4294967296) = none ∧ Arg.address? .unparsable = none := by decide

/-! ## Decoding: one word per constructor, bit by bit (30_encoding.md R82 to R86, R89, R90) -/

theorem test_decode_add : decode 0b000000_00001_00010_00011_00000_100000#32 = some (.add 3 1 2) := by decide
theorem test_decode_sub : decode 0b000000_00100_00101_00110_00000_100010#32 = some (.sub 6 4 5) := by decide
theorem test_decode_mult : decode 0b000000_00001_00010_00000_00000_011000#32 = some (.mult 1 2) := by decide
theorem test_decode_multu : decode 0b000000_00011_00100_00000_00000_011001#32 = some (.multu 3 4) := by decide
theorem test_decode_div : decode 0b000000_00101_00110_00000_00000_011010#32 = some (.div 5 6) := by decide
theorem test_decode_divu : decode 0b000000_11111_10000_00000_00000_011011#32 = some (.divu 31 16) := by decide
theorem test_decode_mfhi : decode 0b000000_00000_00000_00100_00000_010000#32 = some (.mfhi 4) := by decide
theorem test_decode_mflo : decode 0b000000_00000_00000_11111_00000_010010#32 = some (.mflo 31) := by decide
theorem test_decode_lis : decode 0b000000_00000_00000_00110_00000_010100#32 = some (.lis 6) := by decide
theorem test_decode_lw : decode 0b100011_11101_00111_0000000000001000#32 = some (.lw 7 0x0008#16 29) := by decide
theorem test_decode_sw : decode 0b101011_11101_00111_1111111111111100#32 = some (.sw 7 0xFFFC#16 29) := by decide
theorem test_decode_slt : decode 0b000000_00001_00010_00011_00000_101010#32 = some (.slt 3 1 2) := by decide
theorem test_decode_sltu : decode 0b000000_00010_00001_00111_00000_101011#32 = some (.sltu 7 2 1) := by decide
theorem test_decode_beq : decode 0b000100_00001_00010_0000000000000010#32 = some (.beq 1 2 0x0002#16) := by decide
theorem test_decode_bne : decode 0b000101_00010_00000_1111111111111101#32 = some (.bne 2 0 0xFFFD#16) := by decide
theorem test_decode_jr : decode 0b000000_11111_00000_00000_00000_001000#32 = some (.jr 31) := by decide
theorem test_decode_jalr : decode 0b000000_01000_00000_00000_00000_001001#32 = some (.jalr 8) := by decide

/-- 95_test_vectors.md V-DEC-3, 4, 6, 7, 9, 10, 13 to 19, 23. -/
theorem test_decode_refuses :
    [0x00221860#32, 0x00000000#32, 0x00220010#32, 0x00221818#32, 0x03E10008#32, 0x0100F809#32, 0x08000000#32, 0x20000000#32,
      0x0000000C#32, 0x00221824#32, 0x00221821#32, 0xFFFFFFFF#32, 0x00201814#32, 0x0022F01A#32].all
      (fun w => decode w == none) = true := by decide

theorem test_encode_inverts : encode (.sw 7 0xFFFC#16 29) = 0xAFA7FFFC#32 ∧ encode (.jalr 8) = 0x01000009#32
    ∧ encode (.add 0 0 0) = 0x00000020#32 := by decide

/-- A table word of two words: the literal is the second. -/
theorem test_decode_table_word : decodeTableWord 64 0x0000000500001014 = some (.lis 2) ∧ decodeTableWord 32 0 = none := by
  decide

/-! ## Instructions (95_test_vectors.md part 2) -/

theorem test_add_V_ADD_3 : next? (exec (.add 3 1 2) (st 4 [(1, 0x7FFFFFFF), (2, 1)] [])) (fun t => t.reg 3 == 0x80000000#32)
    = true := by decide
theorem test_add_zero_register_V_ADD_10 : next? (exec (.add 0 1 2) (st 4 [(1, 5), (2, 6)] [])) (fun t => t.reg 0 == 11#32)
    = true := by decide
theorem test_sub_V_ADD_1 : next? (exec (.sub 3 1 2) (st 4 [(1, 1), (2, 2)] [])) (fun t => t.reg 3 == 0xFFFFFFFF#32)
    = true := by decide
theorem test_mult_V_MUL_1 : next? (exec (.mult 1 2) (st 4 [(1, 0xFFFFFFFE), (2, 3)] []))
    (fun t => t.hi == 0xFFFFFFFF#32 && t.lo == 0xFFFFFFFA#32) = true := by decide
theorem test_multu_V_MUL_4 : next? (exec (.multu 1 2) (st 4 [(1, 0x80000000), (2, 0xFFFFFFFF)] []))
    (fun t => t.hi == 0x7FFFFFFF#32 && t.lo == 0x80000000#32) = true := by decide
theorem test_div_V_DIV_8 : next? (exec (.div 1 2) (st 4 [(1, 0xFFFFFFFB), (2, 7)] []))
    (fun t => t.lo == 0#32 && t.hi == 0xFFFFFFFB#32) = true := by decide
theorem test_div_V_DIV_5 : next? (exec (.div 1 2) (st 4 [(1, 0x80000000), (2, 0xFFFFFFFF)] []))
    (fun t => t.lo == 0x80000000#32 && t.hi == 0#32) = true := by decide
theorem test_divu_V_DIV_8 : next? (exec (.divu 1 2) (st 4 [(1, 0xFFFFFFFB), (2, 7)] []))
    (fun t => t.lo == 0x24924923#32 && t.hi == 6#32) = true := by decide
theorem test_divu_V_DIV_14 : next? (step (st 0x40 [(1, 5)] [(0x40, 0x0020001B)]))
    (fun t => t.status == .faulted (.divideByZero 0x40#32) && t.pc == 0x44#32) = true := by decide
theorem test_mfhi_V_MF_1 : next? (exec (.mfhi 4) { st 4 [] [] with hi := 0xDEADBEEF#32, lo := 0x01234567#32 })
    (fun t => t.reg 4 == 0xDEADBEEF#32) = true := by decide
theorem test_mflo_V_MF_1 : next? (exec (.mflo 5) { st 4 [] [] with hi := 0xDEADBEEF#32, lo := 0x01234567#32 })
    (fun t => t.reg 5 == 0x01234567#32) = true := by decide
theorem test_lis_V_LIS_3 : next? (step (st 0xFFFFFFFC [] [(0xFFFFFFFC, 0x00000814), (0, 0x1234)]))
    (fun t => t.reg 1 == 0x1234#32 && t.pc == 4#32) = true := by decide
theorem test_lis_V_LIS_4 :
    next? (step (stIn 0xFFFF0000 [] [(0xFFFF0000, 0x00000814), (0xFFFF0004, 0x77)] [.code 1]))
    (fun t => t.reg 1 == 0x77#32 && t.pc == 0xFFFF0008#32 && t.input == [.code 1]) = true := by decide
theorem test_lw_V_LS_3 : next? (exec (.lw 1 0 1) (st 4 [(1, 0x200)] [(0x200, 0xAB)])) (fun t => t.reg 1 == 0xAB#32)
    = true := by decide
theorem test_lw_V_IN_2 : next? (exec (.lw 7 0 5) (stIn 4 [(5, 0xFFFF0004)] [(0xFFFF0004, 9)] [.code 255, .code 3]))
    (fun t => t.reg 7 == 0xFF#32 && t.input == [.code 3]) = true := by decide
theorem test_sw_V_LS_2 : next? (exec (.sw 7 0xFFFC 29) (st 4 [(29, 0x100), (7, 5)] [])) (fun t => memRead t.mem 0xFC#32 == 5#32)
    = true := by decide
theorem test_sw_V_OUT_2 : next? (exec (.sw 6 0 4) (st 4 [(4, 0xFFFF000C), (6, 0x141)] [(0xFFFF000C, 0x12345678)]))
    (fun t => t.out == [0x41#8] && memRead t.mem 0xFFFF000C#32 == 0x12345678#32) = true := by decide
theorem test_slt_V_CMP_3 : next? (exec (.slt 3 1 2) (st 4 [(1, 0x80000000), (2, 0x7FFFFFFF)] [])) (fun t => t.reg 3 == 1#32)
    = true := by decide
theorem test_sltu_V_CMP_4 : next? (exec (.sltu 3 1 2) (st 4 [(1, 0), (2, 0x80000000)] [])) (fun t => t.reg 3 == 1#32)
    = true := by decide
theorem test_beq_V_BR_1 : next? (step (st 0x20 [(1, 7), (2, 7)] [(0x20, 0x10220002)])) (fun t => t.pc == 0x2C#32)
    = true := by decide
theorem test_bne_V_BR_2 : next? (step (st 0x1C [(1, 5)] [(0x1C, 0x1420FFFD)])) (fun t => t.pc == 0x14#32) = true := by decide
theorem test_jr_V_J_1 : next? (step (st 0 [] [(0, 0x03E00008)])) (fun t => t.pc == 0xFFFFFFFF#32 && t.status == .running)
    = true := by decide
theorem test_jalr_V_J_4 : next? (step (st 0x40 [(31, 0x100)] [(0x40, 0x03E00009)]))
    (fun t => t.pc == 0x100#32 && t.reg 31 == 0x44#32) = true := by decide

/-! ## Memory, images, placing an instruction -/

theorem test_memory_forgets_zero : memWrite (memWrite [] 8#32 0x01020304#32) 8#32 0#32 = [] := by decide
theorem test_memory_is_big_endian : memWrite [] 8#32 0x01020304#32 = [(8, 1#8), (9, 2#8), (10, 3#8), (11, 4#8)] := by decide
/-- 95_test_vectors.md E13. -/
theorem test_hex_image :
    (hexImage ['0', '0', '2', '0', '1', '8', '2', '0', '0', '3', 'e', '0', '0', '0', '0', '8']).toOption
      = some [0x00201820#32, 0x03E00008#32] := by decide
theorem test_with_fetch_word : next? (step (State.reset.withFetchWord 64 0x0000000500001014))
    (fun t => t.reg 2 == 5#32 && t.pc == 8#32) = true := by decide
/-- 95_test_vectors.md E5. -/
theorem test_disassemble_lis : disassemble [0x00001014#32, 0#32] = [.instruction (.lis 2), .literal 0#32] := by decide

/-- The syntax of 30_encoding.md R98. -/
theorem test_instr_text : instrText (.lw 7 0x0008#16 29) = "lw $7, 8($29)" ∧ instrText (.bne 2 0 0xFFFD#16) = "bne $2, $0, -3" := by
  decide

/-! ## Witnesses: for each obligation with hypotheses, values that meet all of them -/

/-- A running machine at `add $3, $1, $2`. -/
def atAdd : State := st 0x40 [(1, 0x7FFFFFFF), (2, 1)] [(0x40, 0x00221820)]

theorem witness_EncodeOfDecode : decode 0x00221820#32 = some (.add 3 1 2) := by decide
theorem witness_NoWordMatchesTwoRows_accepts : (rows[0]?.map fun r => r.accepts 0x00221820#32) = some true := by decide
theorem witness_NoWordMatchesTwoRows_none : (rows.all fun r => !r.accepts 0x00221860#32) = true := by decide
theorem witness_StepRunsDecodedInstruction :
    atAdd.RunsAlone ∧ atAdd.pc.toNat % 4 = 0 ∧ decode atAdd.fetchWord = some (.add 3 1 2) := by decide

/-- At a breakpoint, with the resume flag set. -/
def resuming : State := stDbg (dbg .running true [16] []) 0x40 [] [(0x40, 0x00221820)]

theorem witness_DebuggedStep_resuming :
    resuming.RunsUnder (dbg .running true [16] []) ∧ resuming.pc.toNat % 4 = 0
      ∧ decode resuming.fetchWord = some (.add 3 1 2) := by decide
theorem witness_DebuggedStep_no_breakpoint :
    (stDbg (dbg .running false [15, 17] []) 0x40 [] [(0x40, 0x00221820)]).RunsUnder (dbg .running false [15, 17] [])
      ∧ (0x40#32).toNat / 4 ∉ (dbg .running false [15, 17] []).breakpoints
      ∧ (dbg .running false [15, 17] []).tempBreak ≠ some ((0x40#32).toNat / 4) := by decide
theorem witness_SentinelTerminates :
    (st 0xFFFFFFFF [] []).RunsAlone ∧ (st 0xFFFFFFFF [] []).pc = 0xFFFFFFFF#32
      ∧ (stDbg (dbg .running false [] []) 0xFFFFFFFF [] []).RunsUnder (dbg .running false [] []) := by decide
theorem witness_MisalignedFetchFaults :
    [1#32, 2#32, 0xFFFFFFFD#32, 0xFFFFFFFE#32].all (fun pc => decide (
    (st pc [] []).RunsAlone ∧ (st pc [] []).pc.toNat % 4 ≠ 0 ∧ (st pc [] []).pc ≠ 0xFFFFFFFF#32)) = true := by decide
theorem witness_UndecodableWordFaults :
    (st 0xFFFFFFFC [] []).RunsAlone ∧ (st 0xFFFFFFFC [] []).pc.toNat % 4 = 0
      ∧ decode (st 0xFFFFFFFC [] []).fetchWord = none := by decide
theorem witness_EndedCore_alone :
    (st 0xFFFFFFFF [] []).terminate.debugger = none ∧ (st 0xFFFFFFFF [] []).terminate.status ≠ .running := by decide
theorem witness_EndedCore_debugged :
    (stDbg (dbg .paused false [] [.print none none]) 0xFFFFFFFF [] []).terminate.status ≠ .running
      ∧ next? (step (stDbg (dbg .paused false [] [.print none none]) 0xFFFFFFFF [] []).terminate) (fun _ => true) = true := by
  decide

theorem witness_EndedCore_ends : (st 0xFFFFFFFF [] []).status = .running
    ∧ next? (step (st 0xFFFFFFFF [] [])) (fun t => t.status == .terminated) = true := by decide

/-- A `beq` that is taken and one that is not. -/
theorem witness_PcAfterInstruction :
    [5#32, 6#32].all (fun b => decide (
    (st 0x20 [(1, 5), (2, b)] [(0x20, 0x10220002)]).RunsAlone
      ∧ decode (st 0x20 [(1, 5), (2, b)] [(0x20, 0x10220002)]).fetchWord = some (.beq 1 2 2)
      ∧ next? (step (st 0x20 [(1, 5), (2, b)] [(0x20, 0x10220002)])) (fun _ => true) = true)) = true := by decide
theorem witness_AdderWraps_fits :
    (-2 ^ 31 : Int) ≤ (0x7FFFFFFF#32).toInt + (0#32).toInt ∧ (0x7FFFFFFF#32).toInt + (0#32).toInt ≤ (2 ^ 31 - 1 : Int) := by
  decide
theorem witness_AdderWraps_overflows :
    ¬ ((-2 ^ 31 : Int) ≤ (0x7FFFFFFF#32).toInt + (1#32).toInt
      ∧ (0x7FFFFFFF#32).toInt + (1#32).toInt ≤ (2 ^ 31 - 1 : Int)) := by decide
theorem witness_Div_overflow : (st 4 [(1, 0x80000000), (2, 0xFFFFFFFF)] []).reg 1 = 0x80000000#32
    ∧ (st 4 [(1, 0x80000000), (2, 0xFFFFFFFF)] []).reg 2 = 0xFFFFFFFF#32 := by decide
theorem witness_Div_truncates : (st 4 [(1, 0xFFFFFFF9), (2, 2)] []).reg 2 ≠ 0#32
    ∧ ¬ ((st 4 [(1, 0xFFFFFFF9), (2, 2)] []).reg 1 = 0x80000000#32) := by decide
theorem witness_Div_by_zero : (st 4 [(1, 5)] []).reg 2 = 0#32 := by decide
theorem witness_Addresses_aligned : (0xFFFFFFFC#32).toNat % 4 = 0 := by decide

/-- The lowest and the highest aligned address, the output port, and an aligned sum of two that are not (V-EA-5). -/
theorem witness_LwLoadsMemoryWord :
    [(0#32, 0#16), (0#32, 0xFFFC#16), (0xFFFF0000#32, 0x000C#16), (2#32, 2#16)].all (fun p => decide (
    (effectiveAddress p.1 p.2).toNat % 4 = 0 ∧ effectiveAddress p.1 p.2 ≠ 0xFFFF0004#32)) = true := by decide

/-- A machine about to load from the input port. -/
def reading (answers : List InputAnswer) : State := stIn 4 [(5, 0xFFFF0000)] [] answers

theorem witness_LwDrawsInputByte : ∀ c ∈ [(0 : Int), 255],
    effectiveAddress ((reading [.code c]).reg 5) 4 = 0xFFFF0004#32 ∧ (reading [.code c]).input = [.code c]
      ∧ 0 ≤ c ∧ c ≤ 255 := by decide
theorem witness_InvalidInputFaults : ∀ c ∈ [(-1 : Int), 256],
    effectiveAddress ((reading [.code c]).reg 5) 4 = 0xFFFF0004#32 ∧ (reading [.code c]).input = [.code c]
      ∧ (c < 0 ∨ 255 < c) := by decide
theorem witness_InvalidInputFaults_fail : (reading [.fail]).input = [.fail] := by decide
/-- V-IN-6. -/
theorem witness_LoadWaitsForInput :
    effectiveAddress ((reading []).reg 5) 4 = 0xFFFF0004#32 ∧ (reading []).input = []
      ∧ stops? (exec (.lw 7 4 5) (reading [])) .awaitingInput = true := by decide
theorem witness_SwStoresMemoryWord :
    [(0#32, 0#16), (0#32, 0xFFFC#16), (0xFFFF0000#32, 0x0004#16)].all (fun p => decide (
    (st 4 [(5, p.1)] []).mem.wf = true ∧ (effectiveAddress p.1 p.2).toNat % 4 = 0
      ∧ effectiveAddress p.1 p.2 ≠ 0xFFFF000C#32)) = true := by decide
theorem witness_SwToPortSendsLowByte : effectiveAddress ((reading []).reg 5) 0x000C#16 = 0xFFFF000C#32 := by decide
theorem witness_MisalignedDataFaults :
    [(1#32, 0#16), (0#32, 0xFFFF#16), (0xFFFF0000#32, 0x0005#16)].all (fun p => decide (
    (effectiveAddress p.1 p.2).toNat % 4 ≠ 0)) = true := by decide
theorem witness_MemoryReadAfterWrite :
    Memory.wf [(3, 9#8)] = true ∧ (3#32).toNat / 4 = (0#32).toNat / 4 ∧ (3#32).toNat / 4 ≠ (4#32).toNat / 4 := by decide

/-- `sw $6, 4($1)` at 0x10, storing over 0x14. -/
def storingNext : State := st 0x10 [(1, 0x10), (6, 0x00221820)] [(0x10, 0xAC260004)]

theorem witness_StoreIsFetchedNext :
    storingNext.RunsAlone ∧ storingNext.mem.wf = true ∧ storingNext.pc.toNat % 4 = 0
      ∧ decode storingNext.fetchWord = some (.sw 6 4 1)
      ∧ effectiveAddress (storingNext.operand 1) 4 = storingNext.pc + 4#32 ∧ storingNext.pc + 4#32 ≠ 0xFFFF000C#32 := by
  decide
theorem witness_HiLoWritten : next? (step (st 0 [(1, 0xFFFFFFFE), (2, 3)] [(0, 0x00220018)])) (fun t => t.lo != 0#32) = true := by
  decide
theorem witness_OnlyTheDestination : next? (exec (.jalr 5) (st 4 [] [])) (fun t => t.reg 31 != (st 4 [] []).reg 31) = true := by
  decide
theorem witness_OnlySwWritesMemory : storingNext.debugger = none
    ∧ next? (step storingNext) (fun t => t.mem.readByte 0x17 != storingNext.mem.readByte 0x17) = true := by decide
theorem witness_OutputIsAppendOnly :
    next? (step (st 0 [(4, 0xFFFF000C), (6, 0x41)] [(0, 0xAC860000)])) (fun t => t.out == [0x41#8]) = true := by decide
theorem witness_InputDrawnOnlyByLw :
    next? (step (stIn 0 [(5, 0xFFFF0004)] [(0, 0x8CA70000)] [.code 1, .fail])) (fun t => t.input == [.fail]) = true := by
  decide
/-- V-J-2. -/
theorem witness_OnlyJumpsMisalignPc : (st 0 [(1, 6)] [(0, 0x00200008)]).pc.toNat % 4 = 0
    ∧ next? (step (st 0 [(1, 6)] [(0, 0x00200008)])) (fun t => t.pc.toNat % 4 != 0) = true := by decide
theorem witness_FaultsOfEach_div : next? (exec (.div 1 2) (st 4 [] [])) (fun t => t.status == .faulted (.divideByZero 0#32)) = true := by
  decide
theorem witness_FaultsOfEach_lw :
    next? (exec (.lw 7 4 5) (reading [.code 256])) (fun t => t.status == .faulted (.io 0#32 (.code 256))) = true := by decide
theorem witness_FaultsOfEach_sw :
    next? (exec (.sw 1 0xFFFE 0) (st 4 [] [])) (fun t => t.status == .faulted (.alignment .store 0xFFFFFFFE#32 0#32)) = true := by
  decide
theorem witness_FaultsArePrecise_fetch : (st 6 [] []).RunsAlone
    ∧ next? (step (st 6 [] [])) (fun t => t.status == .faulted (.alignment .fetch 6#32 0#32)) = true := by decide
/-- V-LS-6. -/
theorem witness_FaultsArePrecise_load : (st 0x20 [(1, 2)] [(0x20, 0x8C220000)]).RunsAlone
    ∧ next? (step (st 0x20 [(1, 2)] [(0x20, 0x8C220000)]))
        (fun t => t.status == .faulted (.alignment .load 2#32 0x20#32)) = true := by decide
theorem witness_RegisterZeroIsNeverRead : (st 0 [(0, 5)] [(0, 0x00001820)]).RunsAlone
    ∧ (st 0 [(0, 5)] [(0, 0x00001820)]).pc.toNat % 4 = 0
    ∧ next? (step (st 0 [(0, 5)] [(0, 0x00001820)])) (fun t => t.reg 3 == 0#32) = true := by decide

/-- `add $0,$31,$31` would leave register 0 nonzero; the image ends with `jr $31`. -/
def zeroLaunch (options : Option DebugOptions) : Launch :=
  { image := [0x03FF0020#32, 0x03E00008#32], loadOffset := 8#32, initRegs := [(1, -1), (0, 7)], input := [.code 3], debugOptions := options }

theorem witness_RegisterZeroIsZeroAtTermination :
    (zeroLaunch none).debugOptions = none ∧ ∃ s t, launch (zeroLaunch none) = .ok s ∧ Reaches s t ∧ t.status = .terminated :=
  ⟨rfl, _, _, rfl, .next (.next (.next .refl rfl) rfl) rfl, rfl⟩

/-- At the sentinel, where the step terminates, and at a `jr $31` that reaches it with register 0 nonzero before. -/
theorem witness_StepKeepsZeroAtEnd :
    (st 0xFFFFFFFF [] []).debugger = none ∧ (st 0xFFFFFFFF [] []).ZeroAtEnd
      ∧ next? (step (st 0xFFFFFFFF [] [])) (fun t => t.status == .terminated) = true
      ∧ (st 0 [(0, 7)] [(0, 0x03E00008)]).debugger = none ∧ (st 0 [(0, 7)] [(0, 0x03E00008)]).ZeroAtEnd
      ∧ next? (step (st 0 [(0, 7)] [(0, 0x03E00008)])) (fun t => t.pc == Config.sentinel) = true :=
  ⟨rfl, fun _ => by decide, by decide, rfl, fun h => absurd h (by decide), by decide⟩
/-- Every launch that starts a session will do. -/
theorem witness_StepKeepsZeroAtEnd_launch : ∃ s, launch (zeroLaunch none) = .ok s ∧ s.reg 0 = 7#32 := ⟨_, rfl, by decide⟩

theorem witness_StepKeepsInvariant : storingNext.Inv ∧ next? (step storingNext) (fun _ => true) = true :=
  have hs : storingNext.status = .running := rfl
  have hd : storingNext.debugger = none := rfl
  ⟨⟨by decide, by decide, by simp [hs], by simp [hs], by simp [hd], by simp [hd]⟩, by decide⟩

theorem witness_SessionRefinesCore_register :
    (stDbg (dbg .paused false [] [.patchRegister (.num 31) (.num (-1))]) 0 [] []).debugger
        = some (dbg .paused false [] [.patchRegister (.num 31) (.num (-1))])
      ∧ next? (step (stDbg (dbg .paused false [] [.patchRegister (.num 31) (.num (-1))]) 0 [] [])) (fun _ => true) = true := by
  decide
theorem witness_SessionRefinesCore_memory :
    next? (step (stDbg (dbg .paused false [] [.patchMemory (.num 4) [1, 2]]) 0 [] [])) (fun t => memRead t.mem 8#32 == 2#32)
      = true := by decide
theorem witness_BreakpointPauses :
    (stDbg (dbg .running false [16] []) 0x40 [] []).RunsUnder (dbg .running false [16] [])
      ∧ (stDbg (dbg .running false [16] []) 0x40 [] []).pc.toNat % 4 = 0
      ∧ (stDbg (dbg .running false [16] []) 0x40 [] []).pc.toNat / 4 ∈ (dbg .running false [16] []).breakpoints := by decide
theorem witness_BreakpointPauses_temporary :
    (stDbg { dbg .running false [] [] with tempBreak := some 16 } 0x40 [] []).RunsUnder
      { dbg .running false [] [] with tempBreak := some 16 } ∧ some ((0x40#32).toNat / 4) = some 16 := by decide
/-- V-DBG-2. -/
theorem witness_ToggleTwice : breakpointsOk [1, 3] = true ∧ toggleBreakpoint 2 [1, 3] = [1, 2, 3]
    ∧ toggleBreakpoint 3 [1, 3] = [1] := by decide

/-- A paused machine at `w` whose next command is `c`. -/
def paused (c : Command) (w : Word) : State := stDbg (dbg .paused false [] [c]) 0 [] [(0, w)]

theorem witness_StepOver :
    [0x00001014#32, 0x00002010#32].all (fun w => decide (
    (paused .stepOver w).ReadsCommand (dbg .paused false [] [.stepOver]) .stepOver [] ∧ (paused .stepOver w).pc.toNat % 4 = 0
      ∧ (paused .stepOver w).status = .running)) = true := by decide
/-- V-DBG-3: the temporary breakpoint after a `lis` and after another instruction. -/
theorem test_step_over_V_DBG_3 :
    next? (step (paused .stepOver 0x00001014)) (fun t => t.debugger.bind (·.tempBreak) == some 2) = true
      ∧ next? (step (paused .stepOver 0x00002010)) (fun t => t.debugger.bind (·.tempBreak) == some 1) = true := by decide
theorem witness_Continue : (paused .resume 0).ReadsCommand (dbg .paused false [] [.resume]) .resume [] := by decide
theorem witness_StepInto : (paused .stepInto 0x00002010).ReadsCommand (dbg .paused false [] [.stepInto]) .stepInto []
    ∧ next? (step (paused .stepInto 0x00002010).core) (fun _ => true) = true := by decide
theorem witness_RegisterCommand : ∀ r ∈ [(0 : Reg), 31],
    (paused (.patchRegister (.num r.val) (.num (-1))) 0).ReadsCommand
      (dbg .paused false [] [.patchRegister (.num r.val) (.num (-1))]) (.patchRegister (.num r.val) (.num (-1))) [] := by decide
theorem witness_RegisterCommand_refused : ∀ n ∈ [(-1 : Int), 32],
    (n < 0 ∨ 31 < n) ∧ next? (step (paused (.patchRegister (.num n) (.num 5)) 0)) (fun t => t.regs == resetRegs) = true := by decide
theorem witness_RegisterCommand_unparsable :
    [Command.patchRegister .unparsable (.num 5), .patchRegister (.num 5) .unparsable].all
      (fun c => decide ((paused c 0).ReadsCommand (dbg .paused false [] [c]) c [])) = true := by decide
/-- The topmost word. -/
theorem witness_WriteCommand : (paused (.patchMemory (.num (0xFFFFFFFF#32).toNat) [7]) 0).mem.wf = true
    ∧ (paused (.patchMemory (.num (0xFFFFFFFF#32).toNat) [7]) 0).ReadsCommand
        (dbg .paused false [] [.patchMemory (.num (0xFFFFFFFF#32).toNat) [7]]) (.patchMemory (.num (0xFFFFFFFF#32).toNat) [7]) []
    ∧ 4 * ((0xFFFFFFFF#32).toNat / 4) + 4 * [(7 : Int)].length ≤ 2 ^ 32 := by decide
theorem witness_OtherCommands :
    [Command.quit, .toggleTrace, .help, .unrecognized, .print none none, .toggleBreak (some .unparsable),
      .toggleBreak (some (.num (-1))), .toggleBreak (some (.num 4294967296)), .patchMemory .unparsable [1]].all
      (fun c => decide ((paused c 0).ReadsCommand (dbg .paused false [] [c]) c [])) = true := by decide
theorem test_quit_ends : next? (step (paused .quit 0)) (fun t => stops? (step t) .sessionEnded) = true := by decide
theorem witness_LaunchGivesResetState : ∃ s, launch (zeroLaunch none) = .ok s ∧ s.reg 1 = 0xFFFFFFFF#32 ∧ s.reg 0 = 7#32
    ∧ s.reg 2 = 0#32 ∧ memRead s.mem 12#32 = 0x03E00008#32 := ⟨_, rfl, by decide, by decide, by decide, by decide⟩
theorem witness_LaunchStarts :
    ((zeroLaunch none).loadOffset.toNat % 4 = 0 ∧ (zeroLaunch none).loadOffset.toNat + 4 * (zeroLaunch none).image.length ≤ 2 ^ 32)
      ∧ (2#32).toNat % 4 ≠ 0 ∧ 2 ^ 32 < (0xFFFFFFFC#32).toNat + 4 * [0#32, 0#32].length := by decide
/-- E13: 15 bytes, 31 digits, and a character that is no digit. -/
theorem witness_Images : (List.replicate 15 (0#8)).length % 4 ≠ 0 ∧ (List.replicate 31 '0').length % 8 ≠ 0
    ∧ 'g' ∈ ['0', 'g'] ∧ isHexDigit 'g' = false := by decide
/-- V-DBG-1. -/
theorem witness_SoftBreakpoints :
    ∃ s, launch { zeroLaunch (some ⟨[0x13#32], true, []⟩) with image := [0x00000020#32, 0#32, 0x00000020#32] } = .ok s
      ∧ s.debugger.map (·.breakpoints) = some [2, 4] := ⟨_, rfl, by decide⟩
theorem witness_Disassembly : decode 0x00221860#32 = none
    ∧ decode 0x00221820#32 = some (.add 3 1 2) ∧ ∀ r : Reg, Instr.add 3 1 2 ≠ .lis r := ⟨by decide, by decide, fun _ h => nomatch h⟩

end Sys2Proof.Tests
end

/-! # The state's obligations (10_state.md)

What one execute phase can do, said once (`exec_cases`), the frame of the debugger's commands, and the statements that
follow from them. -/

namespace Sys2Proof.Proofs.ExecPhase
open Sys2Proof Sys2Proof.Machine Sys2Proof.Laws

/-! ## What an execute phase can do: complete, or raise one of its own faults -/

/-- `pc` after the execute phase of an instruction, from the state it starts in (10_state.md R30). -/
def nextPc (i : Instr) (s : State) : Word :=
  match i with
  | .lis _ => plus4 s.pc
  | .beq a b imm => if s.reg a = s.reg b then branchTarget s.pc imm else s.pc
  | .bne a b imm => if s.reg a = s.reg b then s.pc else branchTarget s.pc imm
  | .jr a => s.reg a
  | .jalr a => s.reg a
  | _ => s.pc

/-- The faults an instruction raises in its execute phase from `s`, each with its cause (60_exceptions.md R205). -/
inductive ExecFault (s : State) : Instr → FaultRecord → Prop where
  | div {a b : Reg} : s.reg b = 0#32 → ExecFault s (.div a b) (.divideByZero s.cur)
  | divu {a b : Reg} : s.reg b = 0#32 → ExecFault s (.divu a b) (.divideByZero s.cur)
  | load {rt rs : Reg} {imm : Imm16} : aligned (effectiveAddress (s.reg rs) imm) = false →
      ExecFault s (.lw rt imm rs) (.alignment .load (effectiveAddress (s.reg rs) imm) s.cur)
  | input {rt rs : Reg} {imm : Imm16} {r : InputAnswer} : effectiveAddress (s.reg rs) imm = Config.inputAddr →
      r.byte? = none → ExecFault s (.lw rt imm rs) (.io s.cur r)
  | store {rt rs : Reg} {imm : Imm16} : aligned (effectiveAddress (s.reg rs) imm) = false →
      ExecFault s (.sw rt imm rs) (.alignment .store (effectiveAddress (s.reg rs) imm) s.cur)

/-- What every completed execute phase has in common. -/
structure Completes (i : Instr) (s t : State) : Prop where
  status : t.status = s.status
  pc : t.pc = nextPc i s
  cur : t.cur = s.cur
  debugger : t.debugger = s.debugger

/-- A division faults on a zero divisor, and writes HI and LO on any other. -/
theorem divideBy_cases {divmod : Word → Word → QuotRem} {a b : Word} {s t : State}
    (h : divideBy divmod a b s = .next t) :
    (b = 0#32 ∧ t = s.takeFault (.divideByZero s.cur)) ∨ (b ≠ 0#32 ∧ ∃ hi lo, t = s.setHiLo hi lo) := by
  unfold divideBy at h
  split at h
  · exact .inl ⟨‹_›, (next_inj.mp h).symm⟩
  · exact .inr ⟨‹_›, _, _, (next_inj.mp h).symm⟩

/-- A `beq`, taken or not, writes `pc` alone. -/
theorem exec_beq_nextPc (a b : Reg) (imm : Imm16) (s : State) :
    exec (.beq a b imm) s = .next (s.setPc (nextPc (.beq a b imm) s)) := by
  rw [exec_beq, nextPc]
  split <;> rfl

/-- A `bne`, taken or not, writes `pc` alone. -/
theorem exec_bne_nextPc (a b : Reg) (imm : Imm16) (s : State) :
    exec (.bne a b imm) s = .next (s.setPc (nextPc (.bne a b imm) s)) := by
  rw [exec_bne, nextPc]
  split <;> rfl

/-- Everything an execute phase can do: complete, or raise one of its instruction's faults, which changes the status and
perhaps draws input, and nothing else. -/
theorem exec_cases {i : Instr} {s t : State} (h : exec i s = .next t) :
    Completes i s t ∨ ∃ f rest, ExecFault s i f ∧ t = State.takeFault { s with input := rest } f := by
  cases i with
  | div a b =>
    obtain ⟨hb, rfl⟩ | ⟨-, _, _, rfl⟩ := divideBy_cases h
    · exact .inr ⟨_, s.input, .div hb, rfl⟩
    · exact .inl ⟨rfl, rfl, rfl, rfl⟩
  | divu a b =>
    obtain ⟨hb, rfl⟩ | ⟨-, _, _, rfl⟩ := divideBy_cases h
    · exact .inr ⟨_, s.input, .divu hb, rfl⟩
    · exact .inl ⟨rfl, rfl, rfl, rfl⟩
  | lw rt imm rs =>
    rw [exec_lw] at h
    obtain ⟨ha, e⟩ | ⟨-, -, e⟩ | ⟨-, -, e⟩ | ⟨-, _, _, _, -, -, e⟩ | ⟨hp, _, rest, -, hr, e⟩ :=
      execLw_cases rt imm rs s <;> rw [e] at h <;> cases h
    · exact .inr ⟨_, s.input, .load ha, rfl⟩
    · exact .inl ⟨rfl, rfl, rfl, rfl⟩
    · exact .inl ⟨rfl, rfl, rfl, rfl⟩
    · exact .inr ⟨_, rest, .input hp hr, rfl⟩
  | sw rt imm rs =>
    rw [exec_sw] at h
    obtain ⟨ha, e⟩ | ⟨-, -, e⟩ | ⟨-, e⟩ := storeWord_cases (effectiveAddress (s.reg rs) imm) (s.reg rt) s <;>
      rw [e] at h <;> cases h
    · exact .inr ⟨_, s.input, .store ha, rfl⟩
    · exact .inl ⟨rfl, rfl, rfl, rfl⟩
    · exact .inl ⟨rfl, rfl, rfl, rfl⟩
  | beq a b imm =>
    rw [exec_beq_nextPc] at h
    cases h
    exact .inl ⟨rfl, rfl, rfl, rfl⟩
  | bne a b imm =>
    rw [exec_bne_nextPc] at h
    cases h
    exact .inl ⟨rfl, rfl, rfl, rfl⟩
  | _ =>
    cases h
    exact .inl ⟨rfl, rfl, rfl, rfl⟩

/-- No execute phase raises a fetch fault. -/
theorem ExecFault.ne_fetch {s : State} {i : Instr} {f : FaultRecord} (h : ExecFault s i f) (a c : Word) :
    f ≠ .alignment .fetch a c := by
  cases h <;> exact nofun

/-- An instruction that faults in its execute phase is one that leaves `pc` as the fetch left it. -/
theorem ExecFault.nextPc_eq {s : State} {i : Instr} {f : FaultRecord} (h : ExecFault s i f) : nextPc i s = s.pc := by
  cases h <;> rfl

/-- `pc` after an execute phase, faulting ones included. -/
theorem exec_pc {i : Instr} {s t : State} (h : exec i s = .next t) : t.pc = nextPc i s := by
  obtain hc | ⟨f, rest, hf, rfl⟩ := exec_cases h
  · exact hc.pc
  · exact hf.nextPc_eq.symm

/-! ## The operands an execute phase reads -/

/-- After the common first phase a register holds what the execute phase reads as its operand (10_state.md R23 (a)). -/
theorem beginInstr_reg_eq_operand (s : State) (r : Reg) : s.beginInstr.reg r = s.operand r := by
  unfold State.operand
  split
  · next h => rw [h, beginInstr_reg_zero]
  · next h => exact beginInstr_reg s h

/-- A branch target in word arithmetic: `pc` plus 4 times the sign-extended immediate (44_control.md R161). -/
theorem branchTarget_eq_add (pc : Word) (imm : Imm16) : branchTarget pc imm = pc + 4#32 * imm.signExtend 32 := by
  rw [branchTarget, norm32, signed16_eq_toInt, unsigned, BitVec.ofInt_add, BitVec.ofInt_mul, BitVec.ofInt_natCast,
    BitVec.ofNat_toNat, BitVec.setWidth_eq]
  rfl

end Sys2Proof.Proofs.ExecPhase

namespace Sys2Proof.Proofs.StateFamily
open Sys2Proof Sys2Proof.Machine Sys2Proof.Laws Sys2Proof.Proofs.ExecPhase

/-! ## The sentinel (10_state.md R28) -/

/-- The core of a session at the sentinel ends its run, whatever the breakpoints. -/
theorem coreMove_sentinel (d : Debugger) {s : State} (h : s.pc = Config.sentinel) :
    coreMove d s = .next s.terminate.pause := by
  have hp : s.passBreakpoint = s := if_pos h
  simp [coreMove, h, hp, cycle_sentinel h, pauseIfEnded]

@[simp] theorem pause_core (s : State) : s.pause.core = s.core := rfl

theorem terminate_core (s : State) : s.terminate.core = { s.core with status := .terminated } := rfl

/-- Settles O9: alone by the cycle's sentinel test, under a debugger by the same test before the breakpoint check. -/
theorem sentinelTerminates : Obligations.SentinelTerminates := by
  refine ⟨fun s ⟨hr, hd⟩ hpc => ?_, fun s d ⟨hr, hd, hm⟩ hpc => ?_⟩
  · rw [step_alone hr hd]
    exact cycle_sentinel hpc
  · refine ⟨s.terminate.pause, ?_, by rw [pause_core, terminate_core]⟩
    rw [step_under hr hd hm]
    exact coreMove_sentinel d hpc

/-! ## The frame of a debugger command (60_exceptions.md R225 to R228) -/

/-- All of the core but the general registers and memory, which alone a command can patch. -/
structure SameButPatches (s t : State) : Prop where
  status : t.status = s.status
  pc : t.pc = s.pc
  cur : t.cur = s.cur
  hiLo : SameHiLo s t
  ports : SamePorts s t

theorem SameButPatches.refl (s : State) : SameButPatches s s := ⟨rfl, rfl, rfl, ⟨rfl, rfl⟩, ⟨rfl, rfl⟩⟩

theorem sameButPatches_withDebugger (s : State) (f : Debugger → Debugger) : SameButPatches s (s.withDebugger f) :=
  ⟨rfl, rfl, rfl, ⟨rfl, rfl⟩, ⟨rfl, rfl⟩⟩

theorem sameButPatches_setReg (s : State) (r : Reg) (v : Word) : SameButPatches s (s.setReg r v) :=
  ⟨rfl, rfl, rfl, ⟨rfl, rfl⟩, ⟨rfl, rfl⟩⟩

theorem sameButPatches_writeEntries (s : State) (a : Word) (vs : List Int) :
    SameButPatches s (s.writeEntries a vs) := by
  induction vs generalizing s a with
  | nil => exact .refl s
  | cons v vs ih =>
    obtain ⟨hst, hpc, hcur, hhl, hports⟩ := ih (s.writeWord a (norm32 v)) (plus4 a)
    exact ⟨hst, hpc, hcur, hhl, hports⟩

/-- A command that runs no instruction changes at most registers, memory and the debugger. -/
theorem sameButPatches_apply (c : Command) (s : State) : SameButPatches s (c.apply s) := by
  cases c with
  | resume =>
    simp only [Command.apply]
    split
    exacts [sameButPatches_withDebugger s _, .refl s]
  | stepOver =>
    simp only [Command.apply]
    split
    exacts [sameButPatches_withDebugger s _, .refl s]
  | toggleBreak arg =>
    cases arg with
    | none => exact sameButPatches_withDebugger s _
    | some arg =>
      simp only [Command.apply]
      split
      exacts [sameButPatches_withDebugger s _, .refl s]
  | patchRegister reg value =>
    simp only [Command.apply]
    split
    exacts [sameButPatches_setReg s _ _, .refl s]
  | patchMemory start entries =>
    simp only [Command.apply]
    split
    exacts [sameButPatches_writeEntries s _ _, .refl s]
  | toggleTrace => exact sameButPatches_withDebugger s _
  | quit => exact sameButPatches_withDebugger s _
  | stepInto => exact .refl s
  | print _ _ => exact .refl s
  | help => exact .refl s
  | unrecognized => exact .refl s

/-! ## How a run ends (10_state.md R34) -/

/-- A core's step from Running stays Running, terminates at the sentinel, or faults. -/
theorem cycle_status {s t : State} (hr : s.status = .running) (h : cycle s = .next t) :
    t.status = .running ∨ (t.status = .terminated ∧ s.pc = Config.sentinel) ∨ ∃ f, t.status = .faulted f := by
  obtain ⟨hpc, e⟩ | ⟨-, -, e⟩ | ⟨-, -, e⟩ | ⟨i, -, -, e⟩ := cycle_cases s <;> rw [e] at h
  · cases h
    exact .inr (.inl ⟨rfl, hpc⟩)
  · cases h
    exact .inr (.inr ⟨_, rfl⟩)
  · cases h
    exact .inr (.inr ⟨_, rfl⟩)
  · obtain hc | ⟨f, rest, -, rfl⟩ := exec_cases h
    · exact .inl (hc.status.trans hr)
    · exact .inr (.inr ⟨f, rfl⟩)

@[simp] theorem passBreakpoint_status (s : State) : s.passBreakpoint.status = s.status := by
  unfold State.passBreakpoint
  split <;> rfl

@[simp] theorem passBreakpoint_pc (s : State) : s.passBreakpoint.pc = s.pc := by
  unfold State.passBreakpoint
  split <;> rfl

@[simp] theorem pause_status (s : State) : s.pause.status = s.status := rfl

@[simp] theorem pauseIfEnded_status (s : State) : (pauseIfEnded s).status = s.status := by
  unfold pauseIfEnded
  split <;> rfl

/-- A step of an ended machine is a debugger's command that runs no instruction. -/
theorem step_of_ended {s t : State} (he : s.status ≠ .running) (h : step s = .next t) :
    s.debugger ≠ none ∧ ∃ (c : Command) (rest : List Command),
      t = c.apply (s.withDebugger fun d => { d with commands := rest }) := by
  obtain ⟨-, hr, -⟩ | ⟨-, -, -, hr, -⟩ | ⟨d, c, rest, hd, -, -, hrun⟩ := step_cases h
  · exact absurd hr he
  · exact absurd hr he
  · obtain ⟨-, hr, -⟩ | ⟨-, ht⟩ := runCommand_cases hrun
    · exact absurd hr he
    · exact ⟨by simp [hd], c, rest, ht⟩

/-- A step from Running, of any session, stays Running, terminates at the sentinel, or faults. -/
theorem step_status {s t : State} (hr : s.status = .running) (h : step s = .next t) :
    t.status = .running ∨ (t.status = .terminated ∧ s.pc = Config.sentinel) ∨ ∃ f, t.status = .faulted f := by
  obtain ⟨-, -, hc⟩ | ⟨d, -, -, -, hmove⟩ | ⟨d, c, rest, -, -, -, hrun⟩ := step_cases h
  · exact cycle_status hr hc
  · obtain ⟨-, -, rfl⟩ | ⟨u, hu, rfl⟩ := coreMove_cases hmove
    · exact .inl hr
    · simpa using cycle_status (by simpa using hr) hu
  · obtain ⟨-, -, u, hu, rfl⟩ | ⟨-, rfl⟩ := runCommand_cases hrun
    · simpa using cycle_status (by simpa using hr) hu
    · exact .inl ((sameButPatches_apply c _).status.trans hr)

/-- Settles O12: an ended machine moves only by a debugger's command, and a command patches registers and memory alone. -/
theorem endedCoreTakesNoStep : Obligations.EndedCoreTakesNoStep := by
  refine ⟨fun s t hd he h => ?_, fun s t he h => ?_, fun s t hr h => step_status hr h⟩
  · obtain ⟨hdbg, -⟩ := step_of_ended he h
    exact hdbg hd
  · obtain ⟨-, c, rest, rfl⟩ := step_of_ended he h
    obtain ⟨hst, hpc, hcur, hhl, hports⟩ :=
      sameButPatches_apply c (s.withDebugger fun d => { d with commands := rest })
    exact ⟨hst, hpc, hcur, hhl, hports⟩

/-! ## The program counter (10_state.md R30) -/

/-- `pc` after a step that executes `i`. -/
theorem step_pc {s t : State} {i : Instr} (hr : s.status = .running) (hn : s.debugger = none) (ha : s.pc.toNat % 4 = 0)
    (hd : decode s.fetchWord = some i) (h : step s = .next t) : t.pc = nextPc i s.beginInstr := by
  rw [step_alone hr hn, cycle_exec ((aligned_iff _).mpr ha) hd] at h
  exact exec_pc h

/-- Settles O13: `nextPc` after the common first phase, in word arithmetic and in operands. -/
theorem pcAfterInstruction : Obligations.PcAfterInstruction := by
  intro s t i ⟨hr, hn⟩ ha hd h
  have hpc := step_pc hr hn ha hd h
  cases i with
  | lis d =>
    rw [hpc, nextPc, beginInstr_pc, plus4_eq_add, plus4_eq_add, BitVec.add_assoc]
    rfl
  | beq a b imm | bne a b imm =>
    simpa only [nextPc, beginInstr_reg_eq_operand, branchTarget_eq_add, beginInstr_pc, plus4_eq_add] using hpc
  | jr a | jalr a => exact hpc.trans (beginInstr_reg_eq_operand s a)
  | _ => exact hpc.trans (plus4_eq_add s.pc)

/-! ## The state at a fault (10_state.md R36) -/

/-- The state of a fault taken after the common first phase, of which at most the input has been drawn. -/
theorem takeFault_beginInstr_frame (s : State) (rest : List InputAnswer) (f : FaultRecord) :
    let t := State.takeFault { s.beginInstr with input := rest } f
    t.cur = s.pc ∧ t.pc = s.pc + 4#32 ∧ t.reg 0 = 0#32 ∧ SameRegsBut [0] s t ∧ SameHiLo s t ∧ SameMemory s t ∧
      t.out = s.out :=
  ⟨rfl, plus4_eq_add s.pc, beginInstr_reg_zero s, fun _ hr => beginInstr_reg s (List.ne_of_not_mem_cons hr),
    ⟨rfl, rfl⟩, fun _ => rfl, rfl⟩

/-- Everything a faulting step of the core can be: a fetch fault, taken before anything is written, or another fault,
taken after the common first phase. -/
theorem cycle_faulted {s t : State} {f : FaultRecord} (hr : s.status = .running) (h : cycle s = .next t)
    (hf : t.status = .faulted f) :
    (f = .alignment .fetch s.pc s.cur ∧ t = s.takeFault f) ∨
    ((∀ a i, f ≠ .alignment .fetch a i) ∧ ∃ rest, t = State.takeFault { s.beginInstr with input := rest } f) := by
  obtain ⟨-, e⟩ | ⟨-, -, e⟩ | ⟨-, -, e⟩ | ⟨i, -, -, e⟩ := cycle_cases s <;> rw [e] at h
  · cases h
    cases hf
  · cases h
    cases hf
    exact .inl ⟨rfl, rfl⟩
  · cases h
    cases hf
    exact .inr ⟨fun _ _ => nofun, s.input, rfl⟩
  · obtain hc | ⟨g, rest, hg, rfl⟩ := exec_cases h
    · rw [hc.status, beginInstr_status, hr] at hf
      cases hf
    · cases hf
      exact .inr ⟨hg.ne_fetch, rest, rfl⟩

/-- Settles O42, from what a faulting step of the core can be. -/
theorem faultsArePrecise : Obligations.FaultsArePrecise := by
  intro s t f ⟨hr, hd⟩ h hf
  rw [step_alone hr hd] at h
  obtain ⟨rfl, rfl⟩ | ⟨hne, rest, rfl⟩ := cycle_faulted hr h hf
  · exact .inl ⟨rfl, s.cur, rfl⟩
  · obtain ⟨hcur, hpc, hzero, hregs, hhl, hmem, hout⟩ := takeFault_beginInstr_frame s rest f
    exact .inr ⟨hcur, hpc, hzero, hregs, hhl, hmem, hout, hne⟩

end Sys2Proof.Proofs.StateFamily

/-! # The memory's obligations (20_memory.md)

The byte the output port takes, what a misaligned `lw` or `sw` leaves, and the statements that follow from them. -/

namespace Sys2Proof.Proofs.MemoryFamily
open Sys2Proof Sys2Proof.Machine Sys2Proof.Laws

/-! ## The output port (20_memory.md R64) -/

/-- The last of a word's bytes is its value modulo 256. -/
theorem byteOfWord_three (w : Word) : byteOfWord w 3 = BitVec.ofNat 8 (w.toNat % 256) := by
  apply BitVec.eq_of_toNat_eq
  simp [byteOfWord]

/-- A `sw` whose address is the output port is the output of its register, and no store. -/
theorem exec_sw_output {t : Reg} {imm : Imm16} {b : Reg} {s : State}
    (h : effectiveAddress (s.reg b) imm = Config.outputAddr) : exec (.sw t imm b) s = .next (s.output (s.reg t)) := by
  rw [exec_sw, h, storeWord_output]

/-- Settles O27: the state after is `State.output`, which writes the output stream alone. -/
theorem swToPortSendsLowByte : Obligations.SwToPortSendsLowByte := by
  intro t imm b s h
  refine ⟨s.output (s.reg t), exec_sw_output h, ?_, rfl, fun _ => rfl, fun _ _ => rfl, ⟨rfl, rfl⟩, ⟨rfl, rfl⟩, rfl, rfl⟩
  rw [output_out, byteOfWord_three]

/-! ## Misaligned data accesses (20_memory.md R55) -/

/-- Taking a fault changes the status alone (60_exceptions.md R208). -/
theorem onlyStatus_takeFault (s : State) (f : FaultRecord) : OnlyStatus s (s.takeFault f) :=
  ⟨fun _ _ => rfl, ⟨rfl, rfl⟩, fun _ => rfl, ⟨rfl, rfl⟩, ⟨rfl, rfl⟩, rfl⟩

/-- A misaligned `lw` raises its fault on the state it finds, before the I/O decoder is asked. -/
theorem exec_lw_misaligned {t : Reg} {imm : Imm16} {b : Reg} {s : State}
    (h : aligned (effectiveAddress (s.reg b) imm) = false) :
    exec (.lw t imm b) s = .next (s.takeFault (.alignment .load (effectiveAddress (s.reg b) imm) s.cur)) := by
  rw [exec_lw, execLw, loadWord_misaligned h]
  rfl

/-- A misaligned `sw` raises its fault on the state it finds, before the I/O decoder is asked. -/
theorem exec_sw_misaligned {t : Reg} {imm : Imm16} {b : Reg} {s : State}
    (h : aligned (effectiveAddress (s.reg b) imm) = false) :
    exec (.sw t imm b) s = .next (s.takeFault (.alignment .store (effectiveAddress (s.reg b) imm) s.cur)) := by
  rw [exec_sw, storeWord_misaligned _ s h]
  rfl

/-- Settles O28: each access raises its fault on the state it finds, and a fault changes the status alone. -/
theorem misalignedDataFaults : Obligations.MisalignedDataFaults := by
  intro t imm b s ea hea
  have ha : aligned ea = false := Bool.eq_false_iff.mpr (mt (aligned_iff ea).mp hea)
  exact ⟨⟨_, exec_lw_misaligned ha, rfl, onlyStatus_takeFault s _⟩,
    ⟨_, exec_sw_misaligned ha, rfl, onlyStatus_takeFault s _⟩⟩

end Sys2Proof.Proofs.MemoryFamily

/-! # The decoder's obligations (30_encoding.md)

The rows of the decode table are disjoint, so the decoder's answer is characterised by one row: each instruction has a
row of its own (`rowIndex`), and a word decodes as the instruction exactly when that row accepts it and builds
the instruction from it (`decode_eq_some_iff_row`). -/

namespace Sys2Proof.Proofs.EncodingFamily
open Sys2Proof Sys2Proof.Machine Sys2Proof.Laws Sys2Proof.Proofs.StateFamily

/-! ## Disjoint rows (30_encoding.md R92) -/

theorem accepts_iff (r : Row) (w : Word) : r.accepts w = true ↔ w &&& r.mask = r.bits := beq_iff_eq

/-- Two rows that accept one word agree on the bits that both their masks look at. -/
theorem bits_and_mask_of_accepts {r q : Row} {w : Word} (hr : r.accepts w = true) (hq : q.accepts w = true) :
    r.bits &&& q.mask = q.bits &&& r.mask := by
  rw [← (accepts_iff r w).mp hr, ← (accepts_iff q w).mp hq, BitVec.and_assoc, BitVec.and_assoc,
    BitVec.and_comm r.mask]

/-- Any two rows of the table disagree on a bit that both their masks look at. -/
theorem rows_pairwise_disagree : rows.Pairwise fun r q => r.bits &&& q.mask ≠ q.bits &&& r.mask := by decide

/-- Of two rows at different places in the table, not both accept a word. -/
theorem not_accepts_of_index_lt {m n : Nat} {r q : Row} {w : Word} (hm : rows[m]? = some r) (hn : rows[n]? = some q)
    (hlt : m < n) (hr : r.accepts w = true) : ¬ q.accepts w = true := by
  obtain ⟨hml, rfl⟩ := List.getElem?_eq_some_iff.mp hm
  obtain ⟨hnl, rfl⟩ := List.getElem?_eq_some_iff.mp hn
  exact fun hq => List.pairwise_iff_getElem.mp rows_pairwise_disagree m n hml hnl hlt (bits_and_mask_of_accepts hr hq)

/-- The place of the row that accepts a word is unique. -/
theorem index_eq_of_accepts {m n : Nat} {r q : Row} {w : Word} (hm : rows[m]? = some r) (hn : rows[n]? = some q)
    (hr : r.accepts w = true) (hq : q.accepts w = true) : m = n := by
  obtain hlt | heq | hgt := Nat.lt_trichotomy m n
  · exact absurd hq (not_accepts_of_index_lt hm hn hlt hr)
  · exact heq
  · exact absurd hr (not_accepts_of_index_lt hn hm hgt hq)

/-! ## The decoder and the table (30_encoding.md R91, R92) -/

/-- What the decoder gives comes from a row that accepts the word. -/
theorem exists_row_of_decode {w : Word} {i : Instr} (h : decode w = some i) :
    ∃ (n : Nat) (r : Row), rows[n]? = some r ∧ r.accepts w = true ∧ r.build w = i := by
  obtain ⟨r, hfind, hb⟩ := Option.map_eq_some_iff.mp h
  obtain ⟨n, hn⟩ := List.getElem?_of_mem (List.mem_of_find?_eq_some hfind)
  exact ⟨n, r, hn, List.find?_some (p := fun r : Row => r.accepts w) hfind, hb⟩

theorem decode_eq_none_iff (w : Word) : decode w = none ↔ ∀ r ∈ rows, r.accepts w = false := by
  simp [decode, List.find?_eq_none]

/-- The decoder gives the instruction of the accepting row, wherever that row stands. -/
theorem decode_of_accepts {n : Nat} {r : Row} {w : Word} (hn : rows[n]? = some r) (hr : r.accepts w = true) :
    decode w = some (r.build w) := by
  cases hd : decode w with
  | none => exact absurd hr (by simp [(decode_eq_none_iff w).mp hd r (List.mem_of_getElem? hn)])
  | some i =>
    obtain ⟨m, q, hm, hq, rfl⟩ := exists_row_of_decode hd
    obtain rfl := index_eq_of_accepts hm hn hq hr
    obtain rfl := Option.some.inj (hm.symm.trans hn)
    rfl

/-- Settles O4: two rows that accept one word would agree on their common mask bits, and no two rows do. -/
theorem noWordMatchesTwoRows : Obligations.NoWordMatchesTwoRows := by
  refine ⟨rfl, fun w m n r q hm hn hr hq => index_eq_of_accepts hm hn hr hq, fun w r hmem hr => ?_,
    fun w => (decode_eq_none_iff w).mpr⟩
  obtain ⟨n, hn⟩ := List.getElem?_of_mem hmem
  exact decode_of_accepts hn hr

/-! ## The row of an instruction -/

/-- The place in the decode table of the row that builds the instruction. -/
def rowIndex : Instr → Nat
  | .add _ _ _ => 0
  | .sub _ _ _ => 1
  | .slt _ _ _ => 2
  | .sltu _ _ _ => 3
  | .mult _ _ => 4
  | .multu _ _ => 5
  | .div _ _ => 6
  | .divu _ _ => 7
  | .mfhi _ => 8
  | .mflo _ => 9
  | .lis _ => 10
  | .jr _ => 11
  | .jalr _ => 12
  | .lw _ _ _ => 13
  | .sw _ _ _ => 14
  | .beq _ _ _ => 15
  | .bne _ _ _ => 16

/-- A row builds instructions of its own place only. -/
theorem rowIndex_build {n : Nat} {r : Row} (hn : rows[n]? = some r) (w : Word) : rowIndex (r.build w) = n := by
  have hall : (rows.map fun r => rowIndex (r.build w)) = List.range 17 := rfl
  have hlt : n < 17 := (List.getElem?_eq_some_iff.mp hn).1
  have hplace := congrArg (·[n]?) hall
  simpa [hn, hlt] using hplace

/-- A word decodes as an instruction exactly when the instruction's row accepts the word and builds the instruction
from it. -/
theorem decode_eq_some_iff_row {w : Word} {i : Instr} {r : Row} (hr : rows[rowIndex i]? = some r) :
    decode w = some i ↔ w &&& r.mask = r.bits ∧ r.build w = i := by
  rw [← accepts_iff]
  constructor
  · intro hd
    obtain ⟨n, q, hn, hq, rfl⟩ := exists_row_of_decode hd
    rw [rowIndex_build hn, hn] at hr
    obtain rfl := Option.some.inj hr
    exact ⟨hq, rfl⟩
  · rintro ⟨ha, rfl⟩
    exact decode_of_accepts hr ha

/-! ## Operand fields as bits of the word (30_encoding.md R81) -/

theorem regField_val (w : Word) (lo : Nat) : (regField w lo).val = bitsAt w lo 5 := by
  simp only [regField, BitVec.extractLsb'_toNat, Nat.shiftRight_eq_div_pow]

theorem regField_eq_iff (w : Word) (lo : Nat) (r : Reg) : regField w lo = r ↔ r.val = bitsAt w lo 5 := by
  rw [Fin.ext_iff, eq_comm, regField_val]

theorem fieldS_eq_iff (w : Word) (s : Reg) : fieldS w = s ↔ s.val = bitsAt w 21 5 := regField_eq_iff w 21 s

theorem fieldT_eq_iff (w : Word) (t : Reg) : fieldT w = t ↔ t.val = bitsAt w 16 5 := regField_eq_iff w 16 t

theorem fieldD_eq_iff (w : Word) (d : Reg) : fieldD w = d ↔ d.val = bitsAt w 11 5 := regField_eq_iff w 11 d

theorem fieldImm_eq_iff (w : Word) (imm : Imm16) : fieldImm w = imm ↔ imm.toNat = bitsAt w 0 16 := by
  rw [← BitVec.toNat_inj, eq_comm, fieldImm, BitVec.extractLsb'_toNat, Nat.shiftRight_eq_div_pow]

/-- Settles O3: each instruction's row accepts the word, and the row's `build` reads the operands from their bits. -/
theorem decodesIffMaskMatches : Obligations.DecodesIffMaskMatches := by
  intro w d s t imm
  and_intros
  all_goals
    refine Iff.trans (decode_eq_some_iff_row rfl) (and_congr_right fun _ => ?_)
    simp [← fieldS_eq_iff, ← fieldT_eq_iff, ← fieldD_eq_iff, ← fieldImm_eq_iff, and_assoc, and_comm, and_left_comm]

/-! ## The decode fault (30_encoding.md R93) -/

/-- Settles O11: the fault is taken from the state after the common first phase, and changes the status alone. -/
theorem undecodableWordFaults : Obligations.UndecodableWordFaults := by
  intro s ⟨hr, hn⟩ ha hd
  obtain ⟨hcur, -, hzero, hregs, hhl, hmem, hout⟩ :=
    takeFault_beginInstr_frame s s.input (.decode s.fetchWord s.pc)
  have hstep := (step_alone hr hn).trans (cycle_undecodable ((aligned_iff _).mpr ha) hd)
  exact ⟨_, hstep, rfl, hcur, plus4_toNat s.pc, hzero, hregs, hhl, hmem, ⟨hout, rfl⟩, hn⟩

end Sys2Proof.Proofs.EncodingFamily

/-! # Addition and subtraction (40_arithmetic.md)

The adder is word arithmetic (`add32_eq_add`), so its signed reading is the signed sum taken into the 32-bit range;
a word of format R3 is the number the format's fields spell (`encodeR3_eq_ofNat`). -/

namespace Sys2Proof.Proofs.ArithmeticFamily
open Sys2Proof Sys2Proof.Machine Sys2Proof.Laws Sys2Proof.Proofs.EncodingFamily

/-! ## The adder (40_arithmetic.md R110) -/

/-- `norm(v)` as an integer is `v` modulo 2^32 (00_scope.md R15). -/
theorem norm32_toNat_cast (v : Int) : ((norm32 v).toNat : Int) = v % 2 ^ 32 := by
  rw [norm32_toNat, Int.toNat_of_nonneg (Int.emod_nonneg v (by decide))]

theorem add32_toNat (a b : Word) : (add32 a b).toNat = (a.toNat + b.toNat) % 2 ^ 32 := by
  have h := norm32_toNat_cast (a.toNat + b.toNat)
  exact_mod_cast h

theorem sub32_toNat (a b : Word) : ((sub32 a b).toNat : Int) = ((a.toNat : Int) - b.toNat) % 2 ^ 32 :=
  norm32_toNat_cast _

theorem add32_eq_add (a b : Word) : add32 a b = a + b := BitVec.eq_of_toNat_eq (add32_toNat a b)

theorem add32_toInt (a b : Word) : (add32 a b).toInt = (a.toInt + b.toInt).bmod (2 ^ 32) := by
  rw [add32_eq_add, BitVec.toInt_add]

/-- Where the signed sum fits 32 bits, the adder gives it. -/
theorem add32_toInt_of_fits {a b : Word} (h : -2 ^ 31 ≤ a.toInt + b.toInt ∧ a.toInt + b.toInt ≤ 2 ^ 31 - 1) :
    (add32 a b).toInt = a.toInt + b.toInt := by
  rw [add32_toInt]
  exact Int.bmod_eq_of_le h.1 (by omega)

/-- Where the signed sum does not fit 32 bits, it is too large or too small by less than 2^32, so one wrap brings it
into range. -/
theorem add32_toInt_of_overflows {a b : Word} (h : ¬ (-2 ^ 31 ≤ a.toInt + b.toInt ∧ a.toInt + b.toInt ≤ 2 ^ 31 - 1)) :
    (add32 a b).toInt = a.toInt + b.toInt - 2 ^ 32 ∨ (add32 a b).toInt = a.toInt + b.toInt + 2 ^ 32 := by
  have ha := signed_bounds a
  have hb := signed_bounds b
  rw [signed_eq_toInt] at ha hb
  rw [add32_toInt]
  obtain hsmall | hlarge : a.toInt + b.toInt < -2 ^ 31 ∨ 2 ^ 31 ≤ a.toInt + b.toInt := by omega
  · refine .inr ?_
    rw [← Int.add_bmod_right]
    exact Int.bmod_eq_of_le (by omega) (by omega)
  · refine .inl ?_
    rw [← Int.sub_bmod_right]
    exact Int.bmod_eq_of_le (by omega) (by omega)

/-- Settles O14: the unsigned readings are `norm` of the exact result; the signed one is the sum, wrapped where needed. -/
theorem adderWraps : Obligations.AdderWraps := fun a b =>
  ⟨add32_toNat a b, sub32_toNat a b, add32_toInt_of_fits, add32_toInt_of_overflows⟩

/-! ## Words of format R3 (30_encoding.md R82) -/

/-- The value of an appended bit vector: the left part shifted past the right one. -/
theorem toNat_append_eq_mul_add {v w : Nat} (x : BitVec v) (y : BitVec w) :
    (x ++ y).toNat = x.toNat * 2 ^ w + y.toNat := by
  rw [BitVec.toNat_append, ← Nat.shiftLeft_add_eq_or_of_lt y.isLt, Nat.shiftLeft_eq]

/-- A word of format R3 is the number its fields spell. -/
theorem encodeR3_eq_ofNat (fn : BitVec 6) (d a b : Reg) :
    encodeR3 fn d a b = BitVec.ofNat 32 (a.val * 2 ^ 21 + b.val * 2 ^ 16 + d.val * 2 ^ 11 + fn.toNat) := by
  apply BitVec.eq_of_toNat_eq
  simp only [encodeR3, toNat_append_eq_mul_add, regBits_toNat, BitVec.toNat_ofNat]
  omega

/-- An instruction whose row has the mask of format R3 and the function number `fn`, and builds the instruction from the
format's word, is encoded by the number that word's fields spell. -/
theorem encodedBy_of_rowR3 (fn : BitVec 6) {i : Instr} {r : Row} {d a b : Reg} (hr : rows[rowIndex i]? = some r)
    (hmask : r.mask = 0xFC0007FF#32) (hbits : r.bits = 0#26 ++ fn) (hbuild : r.build (encodeR3 fn d a b) = i) :
    EncodedBy i (a.val * 2 ^ 21 + b.val * 2 ^ 16 + d.val * 2 ^ 11 + fn.toNat) := by
  rw [EncodedBy, ← encodeR3_eq_ofNat, decode_eq_some_iff_row hr, hmask, hbits]
  exact ⟨encodeR3_and_mask fn d a b, hbuild⟩

/-! ## The instructions (40_arithmetic.md R111, R112) -/

/-- The frame of an instruction that writes one register. -/
theorem onlyRegs_setReg (s : State) (d : Reg) (v : Word) : OnlyRegs [d] s (s.setReg d v) :=
  ⟨fun _ hr => reg_setReg_other s v (List.ne_of_not_mem_cons hr), ⟨rfl, rfl⟩, fun _ => rfl, ⟨rfl, rfl⟩, ⟨rfl, rfl⟩, rfl⟩

/-- Settles O15: each instruction writes the adder's answer to its destination, in the frame of one register write. -/
theorem addSubWriteWrappedResult : Obligations.AddSubWriteWrappedResult := by
  intro d a b s
  refine ⟨encodedBy_of_rowR3 0x20#6 rfl rfl rfl (by simp), encodedBy_of_rowR3 0x22#6 rfl rfl rfl (by simp),
    ⟨_, exec_add d a b s, ?_, onlyRegs_setReg s d _, rfl⟩, ⟨_, exec_sub d a b s, ?_, onlyRegs_setReg s d _, rfl⟩⟩
  · rw [reg_setReg_same, add32_toNat]
  · rw [reg_setReg_same, sub32_toNat]

end Sys2Proof.Proofs.ArithmeticFamily

/-! # Multiplication, division and the HI/LO moves (41_multiply_divide.md)

The divider is the signed and the unsigned division of words (`divmodS_eq`, `divmodU_eq`), so a quotient and a remainder
are read by the library's facts about those; the multiplier's 64 bits hold every product of two words. -/

namespace Sys2Proof.Proofs.MultiplyDivideFamily
open Sys2Proof Sys2Proof.Machine Sys2Proof.Laws Sys2Proof.Proofs.MemoryFamily Sys2Proof.Proofs.EncodingFamily
  Sys2Proof.Proofs.ArithmeticFamily

/-! ## The words of the instructions (30_encoding.md R83, R84) -/

theorem decode_encode (i : Instr) : decode (encode i) = some i := by
  obtain ⟨n, r, hn, ha, hb⟩ := EncodeRow.all i
  rw [decode_of_accepts hn ha, hb]

/-- An instruction is encoded by the number its word is. -/
theorem encodedBy_of_encode_eq {i : Instr} {n : Nat} (h : encode i = BitVec.ofNat 32 n) : EncodedBy i n := by
  rw [EncodedBy, ← h, decode_encode]

/-- A word of format R2 is the number its fields spell. -/
theorem encodeR2_eq_ofNat (fn : BitVec 6) (a b : Reg) :
    encodeR2 fn a b = BitVec.ofNat 32 (a.val * 2 ^ 21 + b.val * 2 ^ 16 + fn.toNat) := by
  apply BitVec.eq_of_toNat_eq
  simp only [encodeR2, toNat_append_eq_mul_add, regBits_toNat, BitVec.toNat_ofNat]
  omega

/-- A word of format R1d is the number its fields spell. -/
theorem encodeR1d_eq_ofNat (fn : BitVec 6) (d : Reg) :
    encodeR1d fn d = BitVec.ofNat 32 (d.val * 2 ^ 11 + fn.toNat) := by
  apply BitVec.eq_of_toNat_eq
  simp only [encodeR1d, toNat_append_eq_mul_add, regBits_toNat, BitVec.toNat_ofNat]
  omega

/-! ## The multiplier (41_multiply_divide.md R120) -/

/-- Every product of two signed words is a signed 64-bit number, so the multiplier's narrowing loses nothing. -/
theorem mul64s_toInt (a b : Word) : (mul64s a b).toInt = a.toInt * b.toInt := by
  have hlow : -2 ^ 62 ≤ a.toInt * b.toInt := BitVec.le_toInt_mul_toInt
  have hhigh : a.toInt * b.toInt ≤ 2 ^ 62 := BitVec.toInt_mul_toInt_le
  rw [mul64s, signed_eq_toInt, signed_eq_toInt]
  exact BitVec.toInt_ofInt_eq_self (by decide) (by omega) (by omega)

/-- Every product of two unsigned words is an unsigned 64-bit number, so the multiplier's narrowing loses nothing. -/
theorem mul64u_toNat (a b : Word) : (mul64u a b).toNat = a.toNat * b.toNat := by
  rw [mul64u, unsigned, unsigned, ← Int.natCast_mul, BitVec.ofInt_natCast, BitVec.toNat_ofNat]
  exact Nat.mod_eq_of_lt BitVec.toNat_mul_toNat_lt

/-- The number the two halves of a product spell is the product. -/
theorem highHalf_mul_add_lowHalf (p : BitVec 64) : (highHalf p).toNat * 2 ^ 32 + (lowHalf p).toNat = p.toNat := by
  rw [← toNat_append_eq_mul_add, highHalf_append_lowHalf]

/-! ## The multiplies (41_multiply_divide.md R122, R123) -/

/-- The frame of an instruction that writes HI and LO. -/
theorem onlyHiLo_setHiLo (s : State) (h l : Word) : OnlyHiLo s (s.setHiLo h l) :=
  ⟨fun _ _ => rfl, fun _ => rfl, ⟨rfl, rfl⟩, ⟨rfl, rfl⟩, rfl, rfl⟩

/-- Settles O16: HI and LO are the halves of a product that 64 bits hold exactly. -/
theorem multiplyWritesExactProduct : Obligations.MultiplyWritesExactProduct := by
  intro a b s
  refine ⟨encodedBy_of_encode_eq (encodeR2_eq_ofNat 0x18#6 a b), encodedBy_of_encode_eq (encodeR2_eq_ofNat 0x19#6 a b),
    ⟨_, exec_mult a b s, ?_, onlyHiLo_setHiLo s _ _⟩, ⟨_, exec_multu a b s, ?_, onlyHiLo_setHiLo s _ _⟩⟩
  · rw [setHiLo_hi, setHiLo_lo, highHalf_append_lowHalf, mul64s_toInt]
  · rw [setHiLo_hi, setHiLo_lo, highHalf_mul_add_lowHalf, mul64u_toNat]

/-! ## The divider (41_multiply_divide.md R121) -/

/-- `divmod_s` is the division of signed words that truncates toward zero. -/
theorem divmodS_eq (a b : Word) : divmodS a b = ⟨a.sdiv b, a.srem b⟩ := by
  have hq : norm32 (a.toInt.tdiv b.toInt) = a.sdiv b :=
    BitVec.eq_of_toInt_eq (by rw [norm32, BitVec.toInt_ofInt, BitVec.toInt_sdiv])
  have hr : norm32 (a.toInt.tmod b.toInt) = a.srem b := by
    rw [← BitVec.toInt_srem, norm32, BitVec.ofInt_toInt]
  rw [divmodS, signed_eq_toInt, signed_eq_toInt, hq, hr]

/-- A word is its unsigned value narrowed. -/
theorem norm32_unsigned (w : Word) : norm32 (unsigned w) = w := by
  rw [norm32, unsigned, BitVec.ofInt_natCast, BitVec.ofNat_toNat, BitVec.setWidth_eq]

/-- `divmod_u` is the division of unsigned words. -/
theorem divmodU_eq (a b : Word) : divmodU a b = ⟨a / b, a % b⟩ := by
  have hq : (unsigned a).tdiv (unsigned b) = unsigned (a / b) := by
    simp only [unsigned, BitVec.toNat_udiv, Int.ofNat_tdiv]
  have hr : (unsigned a).tmod (unsigned b) = unsigned (a % b) := by
    simp only [unsigned, BitVec.toNat_umod, Int.ofNat_tmod]
  rw [divmodU, hq, hr, norm32_unsigned, norm32_unsigned]

/-- The dividend is quotient times divisor plus remainder, but for -2^31 / -1, whose quotient 2^31 is no signed word. -/
theorem sdiv_mul_add_srem {a b : Word} (h : ¬ (a = 0x80000000#32 ∧ b = 0xFFFFFFFF#32)) :
    a.toInt = (a.sdiv b).toInt * b.toInt + (a.srem b).toInt := by
  rw [BitVec.toInt_sdiv_of_ne_or_ne a b (not_and_or.mp h), BitVec.toInt_srem, Int.tdiv_mul_add_tmod]

/-- The remainder is smaller than the divisor in magnitude. -/
theorem abs_srem_lt (a : Word) {b : Word} (h : b ≠ 0#32) : |(a.srem b).toInt| < |b.toInt| := by
  have hb : 0 < b.toInt.natAbs := Int.natAbs_pos.mpr (BitVec.toInt_ne.mpr h)
  rw [BitVec.toInt_srem, Int.abs_eq_natAbs, Int.abs_eq_natAbs, Int.natAbs_tmod]
  exact_mod_cast Nat.mod_lt a.toInt.natAbs hb

theorem srem_nonneg {a : Word} (b : Word) (h : 0 ≤ a.toInt) : 0 ≤ (a.srem b).toInt := by
  rw [BitVec.toInt_srem]
  exact Int.tmod_nonneg b.toInt h

theorem srem_nonpos {a : Word} (b : Word) (h : a.toInt ≤ 0) : (a.srem b).toInt ≤ 0 := by
  have hneg := Int.tmod_nonneg b.toInt (Int.neg_nonneg_of_nonpos h)
  rw [Int.neg_tmod] at hneg
  rw [BitVec.toInt_srem]
  exact Int.neg_nonneg.mp hneg

/-- Unsigned, the dividend is quotient times divisor plus remainder. -/
theorem udiv_mul_add_umod (a b : Word) : a.toNat = (a / b).toNat * b.toNat + (a % b).toNat := by
  rw [BitVec.toNat_udiv, BitVec.toNat_umod, Nat.div_add_mod']

/-! ## The divides (41_multiply_divide.md R124, R125) -/

/-- A `div` by a nonzero divisor writes the signed quotient and remainder. -/
theorem exec_div_of_ne_zero (a : Reg) {b : Reg} {s : State} (h : s.reg b ≠ 0#32) :
    exec (.div a b) s = .next (s.setHiLo ((s.reg a).srem (s.reg b)) ((s.reg a).sdiv (s.reg b))) := by
  rw [exec_div, if_neg h, divmodS_eq]

/-- A `divu` by a nonzero divisor writes the unsigned quotient and remainder. -/
theorem exec_divu_of_ne_zero (a : Reg) {b : Reg} {s : State} (h : s.reg b ≠ 0#32) :
    exec (.divu a b) s = .next (s.setHiLo (s.reg a % s.reg b) (s.reg a / s.reg b)) := by
  rw [exec_divu, if_neg h, divmodU_eq]

theorem exec_div_zero (a : Reg) {b : Reg} {s : State} (h : s.reg b = 0#32) :
    exec (.div a b) s = .next (s.takeFault (.divideByZero s.cur)) := by
  rw [exec_div, if_pos h]

theorem exec_divu_zero (a : Reg) {b : Reg} {s : State} (h : s.reg b = 0#32) :
    exec (.divu a b) s = .next (s.takeFault (.divideByZero s.cur)) := by
  rw [exec_divu, if_pos h]

/-- Settles O17: truncating division of signed words; only the quotient 2^31 of -2^31 / -1 is no such word, and wraps. -/
theorem divTruncatesOrFaults : Obligations.DivTruncatesOrFaults := by
  intro a b s
  refine ⟨encodedBy_of_encode_eq (encodeR2_eq_ofNat 0x1A#6 a b),
    fun hb => ⟨_, exec_div_of_ne_zero a hb, onlyHiLo_setHiLo s _ _, ?_, fun hov => ?_⟩,
    fun hb => ⟨_, exec_div_zero a hb, rfl, onlyStatus_takeFault s _⟩⟩
  · rintro ⟨ha, hb⟩
    rw [setHiLo_hi, setHiLo_lo, ha, hb]
    decide
  · exact ⟨sdiv_mul_add_srem hov, abs_srem_lt _ hb, srem_nonneg _, srem_nonpos _⟩

/-- Settles O18: Euclidean division of unsigned words, or the fault, which changes the status alone. -/
theorem divuDividesOrFaults : Obligations.DivuDividesOrFaults := by
  intro a b s
  exact ⟨encodedBy_of_encode_eq (encodeR2_eq_ofNat 0x1B#6 a b),
    fun hb => ⟨_, exec_divu_of_ne_zero a hb, onlyHiLo_setHiLo s _ _, udiv_mul_add_umod _ _,
      BitVec.lt_def.mp (BitVec.umod_lt _ ((BitVec.pos_iff_ne_zero _).mpr hb))⟩,
    fun hb => ⟨_, exec_divu_zero a hb, rfl, onlyStatus_takeFault s _⟩⟩

/-! ## The moves (41_multiply_divide.md R126, R127) -/

/-- Settles O19: one register write each, of HI or of LO. -/
theorem movesCopyHiAndLo : Obligations.MovesCopyHiAndLo := fun d s =>
  ⟨encodedBy_of_encode_eq (encodeR1d_eq_ofNat 0x10#6 d), encodedBy_of_encode_eq (encodeR1d_eq_ofNat 0x12#6 d),
    ⟨_, exec_mfhi d s, reg_setReg_same s d s.hi, onlyRegs_setReg s d s.hi, rfl⟩,
    ⟨_, exec_mflo d s, reg_setReg_same s d s.lo, onlyRegs_setReg s d s.lo, rfl⟩⟩

end Sys2Proof.Proofs.MultiplyDivideFamily

/-! # Literal, load and store (42_load_store.md)

A `lw` or `sw` at an aligned address that is not its port is one register write or one word write (`exec_lw_memory`,
`exec_sw_memory`); what the word at an address is in bytes, before and after such a write, is said of `memRead` and
`memWrite` alone. -/

namespace Sys2Proof.Proofs.LoadStoreFamily
open Sys2Proof Sys2Proof.Machine Sys2Proof.Laws Sys2Proof.Proofs.ArithmeticFamily
  Sys2Proof.Proofs.MultiplyDivideFamily

/-! ## Words of format I (30_encoding.md R86) -/

/-- A word of format I is the number its fields spell. -/
theorem encodeI_eq_ofNat (op : BitVec 6) (b t : Reg) (imm : Imm16) :
    encodeI op b t imm =
      BitVec.ofNat 32 (op.toNat * 2 ^ 26 + b.val * 2 ^ 21 + t.val * 2 ^ 16 + imm.toNat) := by
  apply BitVec.eq_of_toNat_eq
  simp only [encodeI, toNat_append_eq_mul_add, regBits_toNat, BitVec.toNat_ofNat]
  omega

/-! ## The literal (42_load_store.md R140) -/

/-- The frame of registers does not speak of `pc`. -/
theorem onlyRegs_setPc {ds : List Reg} {s t : State} (a : Word) (h : OnlyRegs ds s t) : OnlyRegs ds s (t.setPc a) := h

/-- Settles O20: one register write, of the word plain memory holds at `pc`, then `pc` moved past that word. -/
theorem lisLoadsLiteral : Obligations.LisLoadsLiteral := fun d s =>
  ⟨encodedBy_of_encode_eq (encodeR1d_eq_ofNat 0x14#6 d), _, exec_lis d s, reg_setReg_same s d _, plus4_toNat s.pc,
    onlyRegs_setPc _ (onlyRegs_setReg s d _)⟩

/-! ## Words of memory (20_memory.md R53) -/

/-- The word at an aligned address is the four bytes that start there, the first most significant. -/
theorem memRead_aligned (m : Memory) {a : Word} (h : aligned a = true) :
    memRead m a = m.readByte a.toNat ++ m.readByte (a.toNat + 1) ++ m.readByte (a.toNat + 2)
      ++ m.readByte (a.toNat + 3) := by
  rw [memRead, wordBase_aligned h, wordOfBytes]

/-- A word just written reads back, in a memory whose addresses rise. -/
theorem memRead_memWrite_same {m : Memory} (a v : Word) (h : m.rising = true) : memRead (memWrite m a v) a = v := by
  have hbyte (k : Nat) (hk : k < 4) := readByte_memWrite_inside a v h hk
  have hbase : (memWrite m a v).readByte (wordBase a) = byteOfWord v 0 := hbyte 0 (by decide)
  rw [memRead, hbase, hbyte 1 (by decide), hbyte 2 (by decide), hbyte 3 (by decide), wordOfBytes_bytes]

/-! ## Loads from memory (42_load_store.md R142) -/

/-- A `lw` from an aligned address other than the input port writes the word memory holds there. -/
theorem exec_lw_memory {t : Reg} {imm : Imm16} {b : Reg} {s : State}
    (ha : aligned (effectiveAddress (s.reg b) imm) = true) (hp : effectiveAddress (s.reg b) imm ≠ Config.inputAddr) :
    exec (.lw t imm b) s = .next (s.setReg t (s.readWord (effectiveAddress (s.reg b) imm))) := by
  rw [exec_lw, execLw, loadWord_memory ha hp]

/-- Settles O22: one register write, of the four bytes at the aligned address. -/
theorem lwLoadsMemoryWord : Obligations.LwLoadsMemoryWord := by
  intro t imm b s ea
  refine ⟨encodedBy_of_encode_eq (encodeI_eq_ofNat 0x23#6 b t imm), fun hea hp => ?_⟩
  have ha : aligned ea = true := (aligned_iff ea).mpr hea
  refine ⟨_, exec_lw_memory ha hp, ?_, onlyRegs_setReg s t _, rfl⟩
  rw [reg_setReg_same]
  exact memRead_aligned s.mem ha

/-! ## Stores to memory (42_load_store.md R143) -/

/-- A `sw` to an aligned address other than the output port writes the register's word there. -/
theorem exec_sw_memory {t : Reg} {imm : Imm16} {b : Reg} {s : State}
    (ha : aligned (effectiveAddress (s.reg b) imm) = true) (hp : effectiveAddress (s.reg b) imm ≠ Config.outputAddr) :
    exec (.sw t imm b) s = .next (s.writeWord (effectiveAddress (s.reg b) imm) (s.reg t)) := by
  rw [exec_sw, storeWord_memory _ s ha hp]

/-- A word written at an aligned address changes no byte but the four that start there. -/
theorem sameMemoryBut_writeWord (s : State) {a : Word} (v : Word) (h : aligned a = true) :
    SameMemoryBut a.toNat s (s.writeWord a v) := by
  intro x hx
  rw [← wordBase_aligned h] at hx
  exact readByte_memWrite_outside s.mem a v hx

/-- Settles O26: one word write at the aligned address; the word reads back because canonical memory lists rising
addresses. -/
theorem swStoresMemoryWord : Obligations.SwStoresMemoryWord := by
  intro t imm b s ea
  refine ⟨encodedBy_of_encode_eq (encodeI_eq_ofNat 0x2B#6 b t imm), fun hwf hea hp => ?_⟩
  have ha : aligned ea = true := (aligned_iff ea).mpr hea
  exact ⟨_, exec_sw_memory ha hp, memRead_memWrite_same ea (s.reg t) (rising_of_wf hwf),
    sameMemoryBut_writeWord s (s.reg t) ha, fun _ _ => rfl, ⟨rfl, rfl⟩, ⟨rfl, rfl⟩, ⟨rfl, rfl⟩, rfl, rfl⟩

end Sys2Proof.Proofs.LoadStoreFamily

/-! # Comparisons (43_compare.md)

The word a comparison writes is 1 exactly when the order on the readings holds (`slt32_eq`, `sltu32_eq`); each
instruction is one register write of that word. -/

namespace Sys2Proof.Proofs.CompareFamily
open Sys2Proof Sys2Proof.Machine Sys2Proof.Laws Sys2Proof.Proofs.ArithmeticFamily
  Sys2Proof.Proofs.MultiplyDivideFamily

/-! ## The words of the comparisons (43_compare.md R150, R151) -/

theorem truthWord_decide (p : Prop) [Decidable p] : truthWord (decide p) = if p then 1#32 else 0#32 := by
  simp only [truthWord_eq, decide_eq_true_eq]

theorem slt32_eq (a b : Word) : slt32 a b = if a.toInt < b.toInt then 1#32 else 0#32 := by
  rw [slt32, truthWord_decide, signed_eq_toInt, signed_eq_toInt]

theorem sltu32_eq (a b : Word) : sltu32 a b = if a.toNat < b.toNat then 1#32 else 0#32 := by
  simp only [sltu32, truthWord_decide, unsigned, Int.ofNat_lt]

/-! ## The instructions (43_compare.md R150, R151) -/

/-- Settles O31: each instruction writes its comparison's word to its destination, in the frame of one register write. -/
theorem setLessThanWritesComparison : Obligations.SetLessThanWritesComparison := by
  intro d a b s
  refine ⟨encodedBy_of_encode_eq (encodeR3_eq_ofNat 0x2A#6 d a b),
    encodedBy_of_encode_eq (encodeR3_eq_ofNat 0x2B#6 d a b),
    ⟨_, exec_slt d a b s, ?_, onlyRegs_setReg s d _, rfl⟩, ⟨_, exec_sltu d a b s, ?_, onlyRegs_setReg s d _, rfl⟩⟩
  · rw [reg_setReg_same, slt32_eq]
  · rw [reg_setReg_same, sltu32_eq]

end Sys2Proof.Proofs.CompareFamily

/-! # Branches and jumps (44_control.md)

Each instruction is one write of `pc`, from a register or by the branch target, and `jalr` one register write before it;
an address made by `norm32` is the sum of its parts modulo 2^32 (`effectiveAddress_toNat`, `branchTarget_toNat`). -/

namespace Sys2Proof.Proofs.ControlFamily
open Sys2Proof Sys2Proof.Machine Sys2Proof.Laws Sys2Proof.Proofs.ExecPhase Sys2Proof.Proofs.ArithmeticFamily
  Sys2Proof.Proofs.MultiplyDivideFamily Sys2Proof.Proofs.LoadStoreFamily

/-! ## Addresses and targets (42_load_store.md R141, 44_control.md R161) -/

theorem effectiveAddress_toNat (base : Word) (imm : Imm16) :
    ((effectiveAddress base imm).toNat : Int) = (base.toNat + imm.toInt) % 2 ^ 32 := by
  rw [effectiveAddress, norm32_toNat_cast, unsigned, signed16_eq_toInt]

theorem branchTarget_toNat (pc : Word) (imm : Imm16) :
    ((branchTarget pc imm).toNat : Int) = (pc.toNat + 4 * imm.toInt) % 2 ^ 32 := by
  rw [branchTarget, norm32_toNat_cast, unsigned, signed16_eq_toInt]

/-- Settles O21: a target is as aligned as the `pc` it is taken from, and no aligned address is the sentinel. -/
theorem addressesWrapAndTargetsAlign : Obligations.AddressesWrapAndTargetsAlign := by
  intro base imm
  refine ⟨effectiveAddress_toNat base imm, branchTarget_toNat base imm, fun hbase => ?_⟩
  have ha : aligned (branchTarget base imm) = true := by
    rw [aligned_branchTarget]
    exact (aligned_iff base).mpr hbase
  exact ⟨(aligned_iff _).mp ha, ne_sentinel_of_aligned ha⟩

/-! ## The frame of a jump -/

/-- An instruction that writes `pc` alone writes no register and nothing else. -/
theorem onlyRegs_nil_setPc (s : State) (a : Word) : OnlyRegs [] s (s.setPc a) :=
  ⟨fun _ _ => rfl, ⟨rfl, rfl⟩, fun _ => rfl, ⟨rfl, rfl⟩, ⟨rfl, rfl⟩, rfl⟩

/-! ## The branches (44_control.md R162, R163) -/

/-- Settles O32: a branch writes `pc` alone: the target where its condition holds, the old `pc` where it does not. -/
theorem branchesCompareRegisters : Obligations.BranchesCompareRegisters := by
  intro a b imm s
  refine ⟨encodedBy_of_encode_eq (encodeI_eq_ofNat 0x04#6 a b imm),
    encodedBy_of_encode_eq (encodeI_eq_ofNat 0x05#6 a b imm),
    ⟨_, exec_beq_nextPc a b imm s, onlyRegs_nil_setPc s _, fun heq => ?beqTaken, fun hne => if_neg hne⟩,
    ⟨_, exec_bne_nextPc a b imm s, onlyRegs_nil_setPc s _, fun hne => ?bneTaken, fun heq => if_pos heq⟩⟩
  case beqTaken => rw [setPc_pc, nextPc, if_pos heq, branchTarget_toNat]
  case bneTaken => rw [setPc_pc, nextPc, if_neg hne, branchTarget_toNat]

/-! ## The jumps (44_control.md R165, R166) -/

/-- A word of format R1s is the number its fields spell. -/
theorem encodeR1s_eq_ofNat (fn : BitVec 6) (a : Reg) :
    encodeR1s fn a = BitVec.ofNat 32 (a.val * 2 ^ 21 + fn.toNat) := by
  apply BitVec.eq_of_toNat_eq
  simp only [encodeR1s, toNat_append_eq_mul_add, regBits_toNat, BitVec.toNat_ofNat]
  omega

/-- Settles O33: one write of `pc`, of the whole register. -/
theorem jrJumpsToRegister : Obligations.JrJumpsToRegister := fun a s =>
  ⟨encodedBy_of_encode_eq (encodeR1s_eq_ofNat 0x08#6 a), _, exec_jr a s, setPc_pc s _, onlyRegs_nil_setPc s _⟩

/-- Settles O34: the link is one register write, and the jump goes to the register as it was before that write. -/
theorem jalrLinksAndJumps : Obligations.JalrLinksAndJumps := fun a s =>
  ⟨encodedBy_of_encode_eq (encodeR1s_eq_ofNat 0x09#6 a), _, exec_jalr a s, reg_setReg_same s 31 s.pc,
    setPc_pc _ (s.reg a), onlyRegs_setPc _ (onlyRegs_setReg s 31 s.pc)⟩

end Sys2Proof.Proofs.ControlFamily

/-! # The Breakpoint Set at session start (60_exceptions.md)

The set is a fold of insertions over the image's soft-breakpoint indices and the command line's, so membership in it is
membership in one of the two lists (`mem_addBreakpoints`). -/

namespace Sys2Proof.Proofs.ExceptionsFamily
open Sys2Proof Sys2Proof.Machine

/-! ## Membership in the Breakpoint Set (60_exceptions.md R223, R225) -/

@[simp] theorem mem_addBreakpoint (j k : Nat) (b : List Nat) : j ∈ addBreakpoint k b ↔ j = k ∨ j ∈ b := by
  induction b with
  | nil => simp [addBreakpoint]
  | cons h rest ih =>
    rw [addBreakpoint]
    split_ifs with hlt heq
    · exact List.mem_cons
    · simp [heq]
    · simp only [List.mem_cons, ih, or_left_comm]

@[simp] theorem mem_addBreakpoints (j : Nat) (ks b : List Nat) : j ∈ addBreakpoints ks b ↔ j ∈ ks ∨ j ∈ b := by
  induction ks with
  | nil => simp [addBreakpoints]
  | cons k ks ih =>
    have hfold : addBreakpoints (k :: ks) b = addBreakpoint k (addBreakpoints ks b) := rfl
    rw [hfold, mem_addBreakpoint, ih, List.mem_cons, or_assoc]

/-! ## The soft-breakpoint words of an image (60_exceptions.md R224) -/

theorem mem_softBreakpoints (j k : Nat) (image : List Word) :
    j ∈ softBreakpoints k image ↔ ∃ i, image[i]? = some Config.softBreakWord ∧ j = k + i := by
  induction image generalizing k with
  | nil => simp [softBreakpoints]
  | cons w rest ih =>
    have hrest : j ∈ softBreakpoints (k + 1) rest ↔
        ∃ i, (w :: rest)[i + 1]? = some Config.softBreakWord ∧ j = k + (i + 1) := by
      simp only [ih, List.getElem?_cons_succ, Nat.add_right_comm k 1, Nat.add_assoc]
    rw [softBreakpoints, ← Nat.or_exists_add_one, ← hrest]
    split_ifs with hw <;> simp [hw]

/-! ## The session's start (60_exceptions.md R220, R221, R224) -/

/-- A launch that starts a session starts it in `startState`. -/
theorem eq_startState_of_launch {l : Launch} {s : State} (h : launch l = .ok s) : s = startState l := by
  rw [launch] at h
  split_ifs at h
  exact (Except.ok.inj h).symm

@[simp] theorem startState_debugger (l : Launch) :
    (startState l).debugger = l.debugOptions.map (startDebugger l.image l.loadOffset) := rfl

theorem mem_startDebugger_breakpoints (image : List Word) (loadOffset : Word) (o : DebugOptions) (k : Nat) :
    k ∈ (startDebugger image loadOffset o).breakpoints ↔
      (∃ i, image[i]? = some Config.softBreakWord ∧ k = wordIndex loadOffset + i) ∨
        ∃ a ∈ o.breakpoints, k = wordIndex a := by
  simp only [startDebugger, mem_addBreakpoints, mem_softBreakpoints, List.mem_map, List.not_mem_nil, or_false,
    eq_comm (a := k)]

/-- Settles O58: the session starts in `startState`, whose Breakpoint Set is built by insertions from the two lists. -/
theorem softBreakpointsAreSeeded : Obligations.SoftBreakpointsAreSeeded := by
  intro l o s ho hl
  have hdebugger : s.debugger = some (startDebugger l.image l.loadOffset o) := by
    rw [eq_startState_of_launch hl, startState_debugger, ho, Option.map_some]
  exact ⟨_, hdebugger, rfl, rfl, rfl, rfl, mem_startDebugger_breakpoints l.image l.loadOffset o⟩

end Sys2Proof.Proofs.ExceptionsFamily

/-! # The decoder and the encoder are inverse (30_encoding.md)

A row's mask looks at whole fields of the word (`and_eq_iff_fields`), so a word that a row accepts has the encoder's bits
in those fields, and the row reads the operands from the others. -/

namespace Sys2Proof.Proofs.EncodingInverse
open Sys2Proof Sys2Proof.Machine Sys2Proof.Laws Sys2Proof.Proofs.EncodingFamily Sys2Proof.Proofs.MultiplyDivideFamily

/-- Settles O1: a row accepts each instruction's word and builds the instruction back from it. -/
theorem decodeOfEncode : Obligations.DecodeOfEncode := decode_encode

/-! ## A mask equation, field by field -/

theorem and_eq_iff_fields (w mask bits : Word) :
    w &&& mask = bits ↔
      w.extractLsb' 26 6 &&& mask.extractLsb' 26 6 = bits.extractLsb' 26 6 ∧
      w.extractLsb' 21 5 &&& mask.extractLsb' 21 5 = bits.extractLsb' 21 5 ∧
      w.extractLsb' 16 5 &&& mask.extractLsb' 16 5 = bits.extractLsb' 16 5 ∧
      w.extractLsb' 11 5 &&& mask.extractLsb' 11 5 = bits.extractLsb' 11 5 ∧
      w.extractLsb' 6 5 &&& mask.extractLsb' 6 5 = bits.extractLsb' 6 5 ∧
      w.extractLsb' 0 6 &&& mask.extractLsb' 0 6 = bits.extractLsb' 0 6 := by
  simp only [← BitVec.extractLsb'_and]
  refine ⟨fun h => by simp only [h, and_self], fun ⟨h26, h21, h16, h11, h6, h0⟩ => ?_⟩
  rw [word_eq_fields6 (w &&& mask), word_eq_fields6 bits, h26, h21, h16, h11, h6, h0]

/-- A mask that looks at a whole 6-bit field keeps it. -/
@[simp] theorem and_ones6 (x : BitVec 6) : x &&& 63#6 = x := BitVec.and_allOnes

/-- A mask that looks at a whole 5-bit field keeps it. -/
@[simp] theorem and_ones5 (x : BitVec 5) : x &&& 31#5 = x := BitVec.and_allOnes

/-- The fields of a word that is a function code alone. -/
theorem functionWord_fields (fn : BitVec 6) :
    (0#26 ++ fn : Word).extractLsb' 26 6 = 0#6 ∧ (0#26 ++ fn : Word).extractLsb' 21 5 = 0#5 ∧
      (0#26 ++ fn : Word).extractLsb' 16 5 = 0#5 ∧ (0#26 ++ fn : Word).extractLsb' 11 5 = 0#5 ∧
      (0#26 ++ fn : Word).extractLsb' 6 5 = 0#5 ∧ (0#26 ++ fn : Word).extractLsb' 0 6 = fn := by
  revert fn
  decide

/-! ## A word a row accepts is its format's word of the operand fields (30_encoding.md R82 to R86) -/

theorem encodeR3_of_mask {fn : BitVec 6} {w : Word} (h : w &&& 0xFC0007FF#32 = 0#26 ++ fn) :
    encodeR3 fn (fieldD w) (fieldS w) (fieldT w) = w := by
  obtain ⟨hop, hpad, hfn⟩ : w.extractLsb' 26 6 = 0#6 ∧ w.extractLsb' 6 5 = 0#5 ∧ w.extractLsb' 0 6 = fn := by
    simpa [and_eq_iff_fields, functionWord_fields] using h
  conv_rhs => rw [word_eq_fields6 w, hop, hpad, hfn]
  simp only [encodeR3, fieldD, fieldS, fieldT, regBits_regField]

theorem encodeR2_of_mask {fn : BitVec 6} {w : Word} (h : w &&& 0xFC00FFFF#32 = 0#26 ++ fn) :
    encodeR2 fn (fieldS w) (fieldT w) = w := by
  obtain ⟨hop, hd, hpad, hfn⟩ : w.extractLsb' 26 6 = 0#6 ∧ w.extractLsb' 11 5 = 0#5 ∧ w.extractLsb' 6 5 = 0#5 ∧
      w.extractLsb' 0 6 = fn := by
    simpa [and_eq_iff_fields, functionWord_fields] using h
  conv_rhs => rw [word_eq_fields6 w, hop, hd, hpad, hfn]
  simp only [encodeR2, fieldS, fieldT, regBits_regField]

theorem encodeR1d_of_mask {fn : BitVec 6} {w : Word} (h : w &&& 0xFFFF07FF#32 = 0#26 ++ fn) :
    encodeR1d fn (fieldD w) = w := by
  obtain ⟨hop, hs, ht, hpad, hfn⟩ : w.extractLsb' 26 6 = 0#6 ∧ w.extractLsb' 21 5 = 0#5 ∧ w.extractLsb' 16 5 = 0#5 ∧
      w.extractLsb' 6 5 = 0#5 ∧ w.extractLsb' 0 6 = fn := by
    simpa [and_eq_iff_fields, functionWord_fields] using h
  conv_rhs => rw [word_eq_fields6 w, hop, hs, ht, hpad, hfn]
  simp only [encodeR1d, fieldD, regBits_regField]

theorem encodeR1s_of_mask {fn : BitVec 6} {w : Word} (h : w &&& 0xFC1FFFFF#32 = 0#26 ++ fn) :
    encodeR1s fn (fieldS w) = w := by
  obtain ⟨hop, ht, hd, hpad, hfn⟩ : w.extractLsb' 26 6 = 0#6 ∧ w.extractLsb' 16 5 = 0#5 ∧ w.extractLsb' 11 5 = 0#5 ∧
      w.extractLsb' 6 5 = 0#5 ∧ w.extractLsb' 0 6 = fn := by
    simpa [and_eq_iff_fields, functionWord_fields] using h
  conv_rhs => rw [word_eq_fields6 w, hop, ht, hd, hpad, hfn]
  simp only [encodeR1s, fieldS, regBits_regField]

theorem encodeI_of_mask {op : BitVec 6} {w : Word} (h : w &&& 0xFC000000#32 = op ++ 0#26) :
    encodeI op (fieldS w) (fieldT w) (fieldImm w) = w := by
  have hop : w.extractLsb' 26 6 = op := by
    have htop : (op ++ 0#26 : Word).extractLsb' 26 6 = op := BitVec.extractLsb'_append_eq_left
    simpa [htop] using ((and_eq_iff_fields w _ _).mp h).1
  conv_rhs => rw [word_eq_fields4 w, hop]
  simp only [encodeI, fieldS, fieldT, fieldImm, regBits_regField]

/-- Settles O2: the instruction's row accepts the word, and so the word is the row's format's word of the operands. -/
theorem encodeOfDecode : Obligations.EncodeOfDecode := by
  intro w i h
  cases i with
  | add | sub | slt | sltu =>
    obtain ⟨hm, hb⟩ := (decode_eq_some_iff_row rfl).mp h
    exact hb ▸ encodeR3_of_mask hm
  | mult | multu | div | divu =>
    obtain ⟨hm, hb⟩ := (decode_eq_some_iff_row rfl).mp h
    exact hb ▸ encodeR2_of_mask hm
  | mfhi | mflo | lis =>
    obtain ⟨hm, hb⟩ := (decode_eq_some_iff_row rfl).mp h
    exact hb ▸ encodeR1d_of_mask hm
  | jr | jalr =>
    obtain ⟨hm, hb⟩ := (decode_eq_some_iff_row rfl).mp h
    exact hb ▸ encodeR1s_of_mask hm
  | lw | sw | beq | bne =>
    obtain ⟨hm, hb⟩ := (decode_eq_some_iff_row rfl).mp h
    exact hb ▸ encodeI_of_mask hm

/-! ## Legal words by fields (30_encoding.md R89, R90, R94) -/

theorem extractLsb'_eq_iff (w : Word) (lo n : Nat) (x : BitVec n) :
    w.extractLsb' lo n = x ↔ bitsAt w lo n = x.toNat := by
  rw [← BitVec.toNat_inj, BitVec.extractLsb'_toNat, Nat.shiftRight_eq_div_pow]

theorem exists_accepts_rowsR3_iff (w : Word) :
    (∃ r ∈ rowsR3, r.accepts w = true) ↔
      bitsAt w 26 6 = 0 ∧ bitsAt w 0 6 ∈ [0x20, 0x22, 0x2A, 0x2B] ∧ bitsAt w 6 5 = 0 := by
  simp [rowsR3, accepts_iff, and_eq_iff_fields, extractLsb'_eq_iff]
  omega

theorem exists_accepts_rowsR2_iff (w : Word) :
    (∃ r ∈ rowsR2, r.accepts w = true) ↔
      bitsAt w 26 6 = 0 ∧ bitsAt w 0 6 ∈ [0x18, 0x19, 0x1A, 0x1B] ∧ bitsAt w 6 5 = 0 ∧ bitsAt w 11 5 = 0 := by
  simp [rowsR2, accepts_iff, and_eq_iff_fields, extractLsb'_eq_iff]
  omega

theorem exists_accepts_rowsR1_iff (w : Word) :
    (∃ r ∈ rowsR1, r.accepts w = true) ↔
      bitsAt w 26 6 = 0 ∧
        ((bitsAt w 0 6 ∈ [0x10, 0x12, 0x14] ∧ bitsAt w 6 5 = 0 ∧ bitsAt w 16 5 = 0 ∧ bitsAt w 21 5 = 0) ∨
         (bitsAt w 0 6 ∈ [0x08, 0x09] ∧ bitsAt w 6 5 = 0 ∧ bitsAt w 11 5 = 0 ∧ bitsAt w 16 5 = 0)) := by
  simp [rowsR1, accepts_iff, and_eq_iff_fields, extractLsb'_eq_iff]
  omega

theorem exists_accepts_rowsI_iff (w : Word) :
    (∃ r ∈ rowsI, r.accepts w = true) ↔ bitsAt w 26 6 ∈ [0x04, 0x05, 0x23, 0x2B] := by
  simp [rowsI, accepts_iff, and_eq_iff_fields, extractLsb'_eq_iff]
  omega

theorem decode_isSome_iff (w : Word) : (decode w).isSome = true ↔ ∃ r ∈ rows, r.accepts w = true := by
  rw [Option.isSome_iff_ne_none, ne_eq, decode_eq_none_iff]
  simp

/-- Settles O5: a word decodes when a row of one of the four lists accepts it. -/
theorem legalWordsByFields : Obligations.LegalWordsByFields := by
  intro w
  simp only [decode_isSome_iff, rows, List.mem_append, or_and_right, exists_or, exists_accepts_rowsR3_iff,
    exists_accepts_rowsR2_iff, exists_accepts_rowsR1_iff, exists_accepts_rowsI_iff, and_or_left, or_assoc]

/-- Settles O6: the decoder runs on each of the fifteen words. -/
theorem printedWordsDecode : Obligations.PrintedWordsDecode := by
  unfold Obligations.PrintedWordsDecode
  decide

/-! ## Disassembly (30_encoding.md R99) -/

theorem disassembleFrom_length (literalNext : Bool) (ws : List Word) :
    (disassembleFrom literalNext ws).length = ws.length := by
  induction ws generalizing literalNext with
  | nil => rfl
  | cons w rest ih =>
    rw [disassembleFrom]
    split_ifs
    · simp [ih]
    · split <;> simp [ih]

/-- Only a `lis` has a literal after it. -/
theorem lengthWords_eq_one {i : Instr} (h : ∀ r, i ≠ .lis r) : i.lengthWords = 1 := by
  cases i with
  | lis r => exact absurd rfl (h r)
  | _ => rfl

theorem disassemble_cons_instruction {w : Word} {i : Instr} (h : decode w = some i) (ws : List Word) :
    disassemble (w :: ws) = .instruction i :: disassembleFrom (i.lengthWords == 2) ws := by
  simp [disassemble, disassembleFrom, h]

/-- Settles O59: by induction on the words for the length, and by what the scan does with the first word. -/
theorem disassemblyCoversEveryWord : Obligations.DisassemblyCoversEveryWord := by
  refine ⟨disassembleFrom_length false, fun r w ws => ?lis, fun w i ws hd hi => ?other, fun w ws hd => ?undecodable⟩
  case lis => rw [disassemble_cons_instruction (decode_encode (.lis r))]; rfl
  case other => rw [disassemble_cons_instruction hd, lengthWords_eq_one hi]; rfl
  case undecodable => simp [disassemble, disassembleFrom, hd]

end Sys2Proof.Proofs.EncodingInverse

/-! # The input port and the words of memory (20_memory.md)

What a `lw` from the input port does with the provider's first answer, and what a word reads as after another word, or the
same one, is written. -/

namespace Sys2Proof.Proofs.InputAndMemory
open Sys2Proof Sys2Proof.Machine Sys2Proof.Laws Sys2Proof.Proofs.LoadStoreFamily

/-! ## Answers of the input provider (20_memory.md R62) -/

theorem byte?_code {c : Int} (h0 : 0 ≤ c) (h255 : c ≤ 255) : (InputAnswer.code c).byte? = some c.toNat :=
  if_pos ⟨h0, h255⟩

theorem byte?_eq_none_iff (r : InputAnswer) : r.byte? = none ↔ r = .fail ∨ ∃ c, r = .code c ∧ (c < 0 ∨ 255 < c) := by
  cases r with
  | fail => simp [InputAnswer.byte?]
  | code c =>
    simp only [InputAnswer.byte?, ite_eq_right_iff, reduceCtorEq, imp_false, false_or, InputAnswer.code.injEq,
      exists_eq_left']
    omega

/-! ## Loads from the input port (20_memory.md R62, R63, 60_exceptions.md R203) -/

section
variable {t : Reg} {imm : Imm16} {b : Reg} {s : State} {r : InputAnswer} {rest : List InputAnswer}

/-- A valid answer is drawn and loaded. -/
theorem exec_lw_input_valid {c : Nat} (h : effectiveAddress (s.reg b) imm = Config.inputAddr) (hi : s.input = r :: rest)
    (hr : r.byte? = some c) :
    exec (.lw t imm b) s = .next (State.setReg { s with input := rest } t (zext32 c)) := by
  simp only [exec_lw, execLw, h, loadWord_input, inputAccess, hi, hr]

/-- With no answer the machine waits. -/
theorem exec_lw_input_waits (h : effectiveAddress (s.reg b) imm = Config.inputAddr) (hi : s.input = []) :
    exec (.lw t imm b) s = .fault .awaitingInput := by
  simp only [exec_lw, execLw, h, loadWord_input, inputAccess, hi]

/-- An invalid answer is drawn and raises IOFault. -/
theorem exec_lw_input_invalid (h : effectiveAddress (s.reg b) imm = Config.inputAddr) (hi : s.input = r :: rest)
    (hr : r.byte? = none) :
    exec (.lw t imm b) s = .next (State.takeFault { s with input := rest } (.io s.cur r)) := by
  simp only [exec_lw, execLw, h, loadWord_input, inputAccess, hi, hr, raise]

end

/-- Settles O25: with no answer to draw, the load comes to a wait, which is a stop of the machine. -/
theorem loadWaitsForInput : Obligations.LoadWaitsForInput := fun _ _ _ _ h hi => exec_lw_input_waits h hi

/-- Settles O23: one register write, of the code drawn, which is less than 2^32. -/
theorem lwDrawsInputByte : Obligations.LwDrawsInputByte := by
  intro t imm b s c rest h hi h0 h255
  refine ⟨_, exec_lw_input_valid h hi (byte?_code h0 h255), ?_, rfl, rfl,
    fun _ hr => reg_setReg_other _ _ (List.ne_of_not_mem_cons hr), ⟨rfl, rfl⟩, fun _ => rfl, ⟨rfl, rfl⟩, rfl, rfl⟩
  rw [reg_setReg_same, zext32, BitVec.toNat_ofNat]
  omega

/-- Settles O24: the fault is taken from the state whose first answer is drawn, and changes the status alone. -/
theorem invalidInputFaults : Obligations.InvalidInputFaults := by
  intro t imm b s r rest h hi hr
  exact ⟨_, exec_lw_input_invalid h hi ((byte?_eq_none_iff r).mpr hr), rfl, rfl, rfl, fun _ _ => rfl, ⟨rfl, rfl⟩,
    fun _ => rfl, ⟨rfl, rfl⟩, rfl⟩

/-! ## Words of memory (20_memory.md R53) -/

/-- The word at an address is the word with the address's index. -/
theorem memRead_eq_of_wordIndex_eq (m : Memory) {a b : Word} (h : wordIndex a = wordIndex b) :
    memRead m a = memRead m b := by
  rw [memRead, memRead, wordBase, wordBase, h]

/-- Two memories that hold the same four bytes at a word hold the same word there. -/
theorem memRead_congr {m n : Memory} {a : Word}
    (h : ∀ x, wordBase a ≤ x → x < wordBase a + 4 → m.readByte x = n.readByte x) : memRead m a = memRead n a := by
  rw [memRead, memRead, h _ (by omega) (by omega), h _ (by omega) (by omega), h _ (by omega) (by omega),
    h _ (by omega) (by omega)]

/-- A word written leaves every other word. -/
theorem memRead_memWrite_other (m : Memory) {a b : Word} (v : Word) (h : wordIndex a ≠ wordIndex b) :
    memRead (memWrite m a v) b = memRead m b := by
  refine memRead_congr fun x hlo hhi => readByte_memWrite_outside m a v ?_
  simp only [wordBase] at hlo hhi ⊢
  omega

/-- A word never written is 0. -/
theorem memRead_nil (a : Word) : memRead [] a = 0#32 := by
  simp only [memRead, Memory.readByte]
  decide

/-- Settles O29: the canonical form lists rising addresses, so a byte just written is the one a read finds. -/
theorem memoryReadAfterWrite : Obligations.MemoryReadAfterWrite := by
  refine ⟨memRead_nil, fun m a b v hwf => ⟨wf_memWrite a v hwf, ?_⟩⟩
  split_ifs with h
  · rw [← memRead_eq_of_wordIndex_eq _ h, memRead_memWrite_same a v (rising_of_wf hwf)]
  · exact memRead_memWrite_other m v h

end Sys2Proof.Proofs.InputAndMemory

/-! # What an instruction writes

Which registers, HI and LO, memory, output and input an execute phase can change, said once (`exec_writes`), and that it
does not read the debugger. -/

namespace Sys2Proof.Proofs.ExecWrites
open Sys2Proof Sys2Proof.Machine Sys2Proof.Laws Sys2Proof.Proofs.ExecPhase Sys2Proof.Proofs.MemoryFamily
  Sys2Proof.Proofs.MultiplyDivideFamily Sys2Proof.Proofs.LoadStoreFamily Sys2Proof.Proofs.InputAndMemory

/-! ## The frame of an execute phase -/

/-- The instruction is a multiply or a divide. -/
def IsMulDiv (i : Instr) : Prop :=
  ∃ a b, i = .mult a b ∨ i = .multu a b ∨ i = .div a b ∨ i = .divu a b

/-- What an execute phase may have written, and in which instruction. -/
structure Writes (i : Instr) (s t : State) : Prop where
  /-- Only the destination (10_state.md R21). -/
  regs : ∀ r, i.dest? ≠ some r → t.reg r = s.reg r
  /-- HI and LO, by the multiplies and divides (10_state.md R24). -/
  hiLo : SameHiLo s t ∨ IsMulDiv i
  /-- One word of memory, by a `sw` (20_memory.md R61). -/
  mem : t.mem = s.mem ∨ ∃ rt imm rs, i = .sw rt imm rs ∧ aligned (effectiveAddress (s.reg rs) imm) = true ∧
    effectiveAddress (s.reg rs) imm ≠ Config.outputAddr ∧
    t.mem = memWrite s.mem (effectiveAddress (s.reg rs) imm) (s.reg rt)
  /-- One byte of output, by a `sw` to the output port (20_memory.md R64). -/
  out : t.out = s.out ∨ ∃ rt imm rs, i = .sw rt imm rs ∧ effectiveAddress (s.reg rs) imm = Config.outputAddr ∧
    t.out = s.out ++ [byteOfWord (s.reg rt) 3]
  /-- One answer of the input, by a `lw` from the input port (20_memory.md R62). -/
  input : t.input = s.input ∨ ∃ rt imm rs r, i = .lw rt imm rs ∧
    effectiveAddress (s.reg rs) imm = Config.inputAddr ∧ s.input = r :: t.input

/-- A fault writes nothing. -/
theorem writes_takeFault (i : Instr) (s : State) (f : FaultRecord) : Writes i s (s.takeFault f) :=
  ⟨fun _ _ => rfl, .inl ⟨rfl, rfl⟩, .inl rfl, .inl rfl, .inl rfl⟩

/-- A write of `pc` is not one of those. -/
theorem writes_setPc {i : Instr} {s t : State} (h : Writes i s t) (a : Word) : Writes i s (t.setPc a) := by
  obtain ⟨hregs, hhl, hmem, hout, hin⟩ := h
  exact ⟨hregs, hhl, hmem, hout, hin⟩

theorem writes_refl (i : Instr) (s : State) : Writes i s s :=
  ⟨fun _ _ => rfl, .inl ⟨rfl, rfl⟩, .inl rfl, .inl rfl, .inl rfl⟩

/-- One register write, of the destination. -/
theorem writes_setReg {i : Instr} {d : Reg} (hd : i.dest? = some d) (s : State) (v : Word) : Writes i s (s.setReg d v) :=
  ⟨fun _ hr => reg_setReg_other s v fun e => hr (e ▸ hd), .inl ⟨rfl, rfl⟩, .inl rfl, .inl rfl, .inl rfl⟩

/-- HI and LO written, by a multiply or a divide. -/
theorem writes_setHiLo {i : Instr} (hi : IsMulDiv i) (s : State) (h l : Word) : Writes i s (s.setHiLo h l) :=
  ⟨fun _ _ => rfl, .inr hi, .inl rfl, .inl rfl, .inl rfl⟩

theorem divideBy_writes {divmod : Word → Word → QuotRem} {a b : Word} {i : Instr} (hi : IsMulDiv i) {s t : State}
    (h : divideBy divmod a b s = .next t) : Writes i s t := by
  obtain ⟨-, rfl⟩ | ⟨-, hi', lo, rfl⟩ := divideBy_cases h
  · exact writes_takeFault i s _
  · exact writes_setHiLo hi s hi' lo

theorem exec_lw_writes {rt : Reg} {imm : Imm16} {rs : Reg} {s t : State} (h : exec (.lw rt imm rs) s = .next t) :
    Writes (.lw rt imm rs) s t := by
  rw [exec_lw] at h
  obtain ⟨-, e⟩ | ⟨-, -, e⟩ | ⟨-, -, e⟩ | ⟨hp, r, _, _, hi, -, e⟩ | ⟨hp, r, _, hi, -, e⟩ :=
    execLw_cases rt imm rs s <;> rw [e] at h <;> cases h
  · exact writes_takeFault _ s _
  · exact writes_setReg rfl s _
  · exact ⟨fun q hq => reg_setReg_other _ _ fun e => hq (congrArg some e.symm), .inl ⟨rfl, rfl⟩, .inl rfl, .inl rfl,
      .inr ⟨rt, imm, rs, r, rfl, hp, hi⟩⟩
  · exact ⟨fun _ _ => rfl, .inl ⟨rfl, rfl⟩, .inl rfl, .inl rfl, .inr ⟨rt, imm, rs, r, rfl, hp, hi⟩⟩

theorem exec_sw_writes {rt : Reg} {imm : Imm16} {rs : Reg} {s t : State} (h : exec (.sw rt imm rs) s = .next t) :
    Writes (.sw rt imm rs) s t := by
  rw [exec_sw] at h
  obtain ⟨-, e⟩ | ⟨ha, hp, e⟩ | ⟨hp, e⟩ := storeWord_cases (effectiveAddress (s.reg rs) imm) (s.reg rt) s <;>
    rw [e] at h <;> cases h
  · exact writes_takeFault _ s _
  · exact ⟨fun _ _ => rfl, .inl ⟨rfl, rfl⟩, .inr ⟨rt, imm, rs, rfl, ha, hp, rfl⟩, .inl rfl, .inl rfl⟩
  · exact ⟨fun _ _ => rfl, .inl ⟨rfl, rfl⟩, .inl rfl, .inr ⟨rt, imm, rs, rfl, hp, rfl⟩, .inl rfl⟩

/-- Everything an execute phase can write. -/
theorem exec_writes {i : Instr} {s t : State} (h : exec i s = .next t) : Writes i s t := by
  cases i with
  | add | sub | slt | sltu | mfhi | mflo =>
    cases h
    exact writes_setReg rfl s _
  | lis d =>
    cases h
    exact writes_setPc (writes_setReg rfl s _) _
  | mult a b =>
    cases h
    exact writes_setHiLo ⟨a, b, by simp⟩ s _ _
  | multu a b =>
    cases h
    exact writes_setHiLo ⟨a, b, by simp⟩ s _ _
  | div a b => exact divideBy_writes ⟨a, b, by simp⟩ h
  | divu a b => exact divideBy_writes ⟨a, b, by simp⟩ h
  | lw => exact exec_lw_writes h
  | sw => exact exec_sw_writes h
  | beq a b imm =>
    rw [exec_beq_nextPc] at h
    cases h
    exact writes_setPc (writes_refl _ s) _
  | bne a b imm =>
    rw [exec_bne_nextPc] at h
    cases h
    exact writes_setPc (writes_refl _ s) _
  | jr a =>
    cases h
    exact writes_setPc (writes_refl _ s) _
  | jalr a =>
    cases h
    exact writes_setPc (writes_setReg rfl s _) _

/-- Settles O36: the registers' part of the frame. -/
theorem onlyTheDestinationIsWritten : Obligations.OnlyTheDestinationIsWritten :=
  fun _ _ _ r h hne => by_contra fun hd => hne ((exec_writes h).regs r hd)

/-- Settles O41: a completed execute phase stays Running, so the fault is one of those the instruction can raise. -/
theorem faultsOfEachInstruction : Obligations.FaultsOfEachInstruction := by
  intro i s t f h hr hf
  obtain hc | ⟨g, rest, hg, rfl⟩ := exec_cases h
  · rw [hc.status, hr] at hf
    cases hf
  · cases hf
    cases hg with
    | @div a b => exact .inl ⟨a, b, .inl rfl, rfl⟩
    | @divu a b => exact .inl ⟨a, b, .inr rfl, rfl⟩
    | @load rt rs imm => exact .inr (.inl ⟨rt, imm, rs, rfl, .inl ⟨_, rfl⟩⟩)
    | @input rt rs imm r => exact .inr (.inl ⟨rt, imm, rs, rfl, .inr ⟨r, rfl⟩⟩)
    | @store rt rs imm => exact .inr (.inr ⟨rt, imm, rs, rfl, _, rfl⟩)

/-! ## The debugger is not read (60_exceptions.md R220) -/

/-- Settles O47: instruction by instruction, each case of what it can do under no debugger and under `d`. -/
theorem debuggerDoesNotChangeResults : Obligations.DebuggerDoesNotChangeResults := by
  intro i s d
  cases i with
  | lw t imm b =>
    rw [exec_lw t imm b s]
    obtain ⟨ha, e⟩ | ⟨ha, hp, e⟩ | ⟨hp, hi, e⟩ | ⟨hp, _, _, _, hi, hr, e⟩ | ⟨hp, _, _, hi, hr, e⟩ :=
      execLw_cases t imm b s <;> rw [e]
    · exact exec_lw_misaligned ha
    · exact exec_lw_memory ha hp
    · exact exec_lw_input_waits hp hi
    · exact exec_lw_input_valid hp hi hr
    · exact exec_lw_input_invalid hp hi hr
  | sw t imm b =>
    rw [exec_sw t imm b s]
    obtain ⟨ha, e⟩ | ⟨ha, hp, e⟩ | ⟨hp, e⟩ := storeWord_cases (effectiveAddress (s.reg b) imm) (s.reg t) s <;> rw [e]
    · exact exec_sw_misaligned ha
    · exact exec_sw_memory ha hp
    · exact exec_sw_output hp
  | div a b =>
    by_cases hb : s.reg b = 0#32
    · rw [exec_div_zero a hb]
      exact exec_div_zero a hb
    · rw [exec_div_of_ne_zero a hb]
      exact exec_div_of_ne_zero a hb
  | divu a b =>
    by_cases hb : s.reg b = 0#32
    · rw [exec_divu_zero a hb]
      exact exec_divu_zero a hb
    · rw [exec_divu_of_ne_zero a hb]
      exact exec_divu_of_ne_zero a hb
  | beq a b imm =>
    rw [exec_beq_nextPc, exec_beq_nextPc]
    rfl
  | bne a b imm =>
    rw [exec_bne_nextPc, exec_bne_nextPc]
    rfl
  | _ => rfl

end Sys2Proof.Proofs.ExecWrites

/-! # The steps of a session and the core's (10_state.md, 60_exceptions.md)

The core's cycle does not read the debugger (`cycle_under`), so a step of any session is, to the core, one of three: nothing,
the core's own cycle, or the patch of a command (`step_core_cases`). What a step can change follows from what a cycle can. -/

namespace Sys2Proof.Proofs.SessionFamily
open Sys2Proof Sys2Proof.Machine Sys2Proof.Laws Sys2Proof.Proofs.ExecPhase Sys2Proof.Proofs.StateFamily
  Sys2Proof.Proofs.MemoryFamily Sys2Proof.Proofs.LoadStoreFamily Sys2Proof.Proofs.ExecWrites

/-! ## The core alone and under a debugger -/

/-- The core's cycle is the same under any debugger, which it leaves as it is. -/
theorem cycle_under (s : State) (d : Option Debugger) :
    cycle { s with debugger := d } = onNext (cycle s) fun t => .next { t with debugger := d } := by
  obtain ⟨hpc, e⟩ | ⟨hpc, ha, e⟩ | ⟨ha, hd, e⟩ | ⟨i, ha, hd, e⟩ := cycle_cases s <;> rw [e]
  · exact cycle_sentinel hpc
  · exact cycle_misaligned hpc ha
  · exact cycle_undecodable ha hd
  · rw [← debuggerDoesNotChangeResults]
    exact cycle_exec ha hd

/-- A cycle under a debugger is the cycle of the core. -/
theorem cycle_core {s t : State} (h : cycle s = .next t) : cycle s.core = .next t.core := by
  rw [State.core, cycle_under, h, onNext_next, State.core]

@[simp] theorem withDebugger_core (s : State) (f : Debugger → Debugger) : (s.withDebugger f).core = s.core := rfl

@[simp] theorem passBreakpoint_core (s : State) : s.passBreakpoint.core = s.core := by
  unfold State.passBreakpoint
  split <;> rfl

@[simp] theorem pauseIfEnded_core (s : State) : (pauseIfEnded s).core = s.core := by
  unfold pauseIfEnded
  split <;> rfl

@[simp] theorem writeEntries_core (s : State) (a : Word) (vs : List Int) :
    (s.writeEntries a vs).core = s.core.writeEntries a vs := by
  induction vs generalizing s a with
  | nil => rfl
  | cons v vs ih => exact ih _ _

/-! ## What a command does to the core (60_exceptions.md R225 to R228) -/

/-- The two commands that patch the core, and what each makes of it (60_exceptions.md R226, R227). -/
inductive Patch (s : State) : Command → State → Prop where
  | register (r : Reg) (v : Int) : Patch s (.patchRegister (.num r.val) (.num v)) (s.setReg r (norm32 v))
  | memory (a : Word) (vs : List Int) : Patch s (.patchMemory (.num a.toNat) vs) (s.writeEntries a vs)

theorem eq_num_of_reg?_eq_some {a : Arg} {r : Reg} (h : a.reg? = some r) : a = .num r.val := by
  cases a with
  | unparsable => cases h
  | num n =>
    simp only [Arg.reg?, Option.ite_none_right_eq_some, Option.some.injEq] at h
    obtain ⟨hn, rfl⟩ := h
    simp only [Fin.ofNat, Arg.num.injEq]
    omega

theorem eq_num_of_address?_eq_some {a : Arg} {w : Word} (h : a.address? = some w) : a = .num w.toNat := by
  cases a with
  | unparsable => cases h
  | num n =>
    simp only [Arg.address?, Option.ite_none_right_eq_some, Option.some.injEq] at h
    obtain ⟨hn, rfl⟩ := h
    rw [norm32_toNat, Arg.num.injEq]
    omega

theorem eq_num_of_value?_eq_some {a : Arg} {w : Word} (h : a.value? = some w) : ∃ v, a = .num v ∧ w = norm32 v := by
  cases a with
  | unparsable => cases h
  | num n => exact ⟨n, rfl, (Option.some.inj h).symm⟩

/-- A command that runs no instruction leaves the core or patches it. -/
theorem apply_core_cases (c : Command) (s : State) : (c.apply s).core = s.core ∨ Patch s.core c (c.apply s).core := by
  cases c with
  | resume | stepOver =>
    simp only [Command.apply]
    split <;> exact .inl rfl
  | toggleBreak arg =>
    cases arg with
    | none => exact .inl rfl
    | some arg =>
      simp only [Command.apply]
      split <;> exact .inl rfl
  | patchRegister reg value =>
    simp only [Command.apply]
    split
    · next r w hr hv =>
      obtain rfl := eq_num_of_reg?_eq_some hr
      obtain ⟨v, rfl, rfl⟩ := eq_num_of_value?_eq_some hv
      exact .inr (.register r v)
    · exact .inl rfl
  | patchMemory start entries =>
    simp only [Command.apply]
    split
    · next a ha =>
      obtain rfl := eq_num_of_address?_eq_some ha
      rw [writeEntries_core]
      exact .inr (.memory a entries)
    · exact .inl rfl
  | _ => exact .inl rfl

/-! ## What a step does to the core -/

/-- Everything a step of a session can do to the core: nothing, the core's own cycle, or the patch of the command read. -/
theorem step_core_cases {s t : State} (h : step s = .next t) :
    t.core = s.core ∨ (s.status = .running ∧ cycle s.core = .next t.core) ∨
      ∃ d c rest, s.debugger = some d ∧ d.mode = .paused ∧ d.commands = c :: rest ∧ Patch s.core c t.core := by
  obtain ⟨-, hr, hc⟩ | ⟨d, -, -, hr, hmove⟩ | ⟨d, c, rest, hd, hm, hcs, hrun⟩ := step_cases h
  · exact .inr (.inl ⟨hr, cycle_core hc⟩)
  · obtain ⟨-, -, rfl⟩ | ⟨u, hu, rfl⟩ := coreMove_cases hmove
    · exact .inl rfl
    · have hcore := cycle_core hu
      rw [passBreakpoint_core] at hcore
      exact .inr (.inl ⟨hr, by rw [hcore, pauseIfEnded_core]⟩)
  · obtain ⟨-, hr, u, hu, rfl⟩ | ⟨-, rfl⟩ := runCommand_cases hrun
    · have hcore := cycle_core hu
      rw [withDebugger_core] at hcore
      exact .inr (.inl ⟨hr, by rw [hcore, pause_core]⟩)
    · obtain hsame | hpatch := apply_core_cases c (s.withDebugger fun d => { d with commands := rest })
      · exact .inl hsame
      · exact .inr (.inr ⟨d, c, rest, hd, hm, hcs, hpatch⟩)

/-- Settles O48: the three things a step can be to the core, the patch being a register's or memory's. -/
theorem sessionRefinesCore : Obligations.SessionRefinesCore := by
  intro s t d hd h
  obtain hsame | ⟨hr, hc⟩ | ⟨d', c, rest, hd', hm, hcs, hpatch⟩ := step_core_cases h
  · exact .inl hsame
  · exact .inr (.inl ((step_alone (s := s.core) hr rfl).trans hc))
  · obtain rfl := Option.some.inj (hd'.symm.trans hd)
    generalize t.core = u at hpatch ⊢
    cases hpatch with
    | register r v => exact .inr (.inr (.inl ⟨hm, r, v, rest, hcs, rfl⟩))
    | memory a vs => exact .inr (.inr (.inr ⟨hm, a, vs, rest, hcs, rfl⟩))

/-! ## What the core's cycle leaves where it executes nothing -/

/-- What a step leaves that executes no instruction: HI, LO, the ports, and `pc` up to the fetch advance. -/
structure IdleFrame (s t : State) : Prop where
  hiLo : SameHiLo s t
  ports : SamePorts s t
  pc : t.pc = s.pc ∨ t.pc = plus4 s.pc

theorem IdleFrame.refl (s : State) : IdleFrame s s := ⟨⟨rfl, rfl⟩, ⟨rfl, rfl⟩, .inl rfl⟩

/-- The frame does not speak of the debugger. -/
theorem IdleFrame.of_core {s t : State} (h : IdleFrame s.core t.core) : IdleFrame s t := ⟨h.hiLo, h.ports, h.pc⟩

/-- A cycle of the core executes the instruction at `pc`, or it leaves memory and what an idle step leaves. -/
theorem cycle_exec_or_idle {s t : State} (h : cycle s = .next t) :
    (t.mem = s.mem ∧ IdleFrame s t) ∨ ∃ i, decode s.fetchWord = some i ∧ exec i s.beginInstr = .next t := by
  obtain ⟨-, e⟩ | ⟨-, -, e⟩ | ⟨-, -, e⟩ | ⟨i, -, hd, e⟩ := cycle_cases s <;> rw [e] at h
  · cases h
    exact .inl ⟨rfl, ⟨rfl, rfl⟩, ⟨rfl, rfl⟩, .inl rfl⟩
  · cases h
    exact .inl ⟨rfl, ⟨rfl, rfl⟩, ⟨rfl, rfl⟩, .inl rfl⟩
  · cases h
    exact .inl ⟨rfl, ⟨rfl, rfl⟩, ⟨rfl, rfl⟩, .inr rfl⟩
  · exact .inr ⟨i, hd, h⟩

theorem Patch.idleFrame {s t : State} {c : Command} (h : Patch s c t) : IdleFrame s t := by
  cases h with
  | register r v => exact ⟨⟨rfl, rfl⟩, ⟨rfl, rfl⟩, .inl rfl⟩
  | memory a vs =>
    obtain ⟨-, hpc, -, hhl, hports⟩ := sameButPatches_writeEntries s a vs
    exact ⟨hhl, hports, .inl hpc⟩

/-- A step of any session executes the instruction at `pc`, as the core alone would, or it leaves what an idle step
leaves. -/
theorem step_exec_or_idle {s t : State} (h : step s = .next t) :
    IdleFrame s t ∨ ∃ i, decode s.fetchWord = some i ∧ exec i s.core.beginInstr = .next t.core := by
  obtain hsame | ⟨-, hc⟩ | ⟨_, _, _, -, -, -, hpatch⟩ := step_core_cases h
  · exact .inl (.of_core (hsame ▸ .refl s.core))
  · obtain ⟨-, hidle⟩ | hex := cycle_exec_or_idle hc
    · exact .inl hidle.of_core
    · exact .inr hex
  · exact .inl hpatch.idleFrame.of_core

/-! ## What a step of a session changes -/

/-- Settles O35: a step that changes HI or LO is not idle, so it executes a multiply or a divide. -/
theorem hiLoWrittenOnlyByMultiplyDivide : Obligations.HiLoWrittenOnlyByMultiplyDivide := by
  intro s t h hne
  obtain hidle | ⟨i, hd, hex⟩ := step_exec_or_idle h
  · exact absurd hidle.hiLo hne
  · obtain hsame | ⟨a, b, hi⟩ := (exec_writes hex).hiLo
    · exact absurd hsame hne
    · refine ⟨a, b, ?_⟩
      simpa only [hd, Option.some.injEq] using hi

/-- Settles O38: a step that changes the output is not idle, so it executes a `sw` to the output port. -/
theorem outputIsAppendOnly : Obligations.OutputIsAppendOnly := by
  intro s t h
  obtain hidle | ⟨i, hd, hex⟩ := step_exec_or_idle h
  · exact .inl hidle.ports.1
  · obtain hsame | ⟨rt, imm, rs, rfl, hp, hout⟩ := (exec_writes hex).out
    · exact .inl hsame
    · rw [beginInstr_reg_eq_operand] at hp
      rw [beginInstr_reg_eq_operand, byteOfWord_three] at hout
      exact .inr ⟨rt, imm, rs, hd, hp, hout⟩

/-- Settles O39: a step that changes the input is not idle, so it executes a `lw` from the input port. -/
theorem inputDrawnOnlyByLw : Obligations.InputDrawnOnlyByLw := by
  intro s t h
  obtain hidle | ⟨i, hd, hex⟩ := step_exec_or_idle h
  · exact .inl hidle.ports.2
  · obtain hsame | ⟨rt, imm, rs, r, rfl, hp, hin⟩ := (exec_writes hex).input
    · exact .inl hsame
    · rw [beginInstr_reg_eq_operand] at hp
      exact .inr ⟨rt, imm, rs, r, hd, hp, hin⟩

/-- An instruction other than `jr` and `jalr` keeps `pc` aligned. -/
theorem aligned_nextPc {i : Instr} {s : State} (ha : aligned s.pc = true) (hi : ∀ a, i ≠ .jr a ∧ i ≠ .jalr a) :
    aligned (nextPc i s) = true := by
  cases i with
  | lis d => exact (aligned_plus4 s.pc).trans ha
  | beq a b imm | bne a b imm =>
    rw [nextPc]
    split
    all_goals simp only [aligned_branchTarget, ha]
  | jr a => exact absurd rfl (hi a).1
  | jalr a => exact absurd rfl (hi a).2
  | _ => exact ha

/-- Settles O40: an idle step keeps an aligned `pc` aligned, and so does every instruction but the two jumps. -/
theorem onlyJumpsMisalignPc : Obligations.OnlyJumpsMisalignPc := by
  intro s t h hs ht
  rw [← aligned_iff] at hs
  rw [ne_eq, ← aligned_iff] at ht
  obtain ⟨-, -, hpc | hpc⟩ | ⟨i, hd, hex⟩ := step_exec_or_idle h
  · exact absurd (hpc ▸ hs) ht
  · exact absurd (by rw [hpc, aligned_plus4, hs]) ht
  · by_contra hno
    have hpc : t.core.pc = nextPc i s.core.beginInstr := exec_pc hex
    refine ht ((congrArg aligned hpc).trans (aligned_nextPc ((aligned_plus4 s.pc).trans hs) fun a => ⟨?_, ?_⟩))
    · rintro rfl
      exact hno ⟨a, .inl hd⟩
    · rintro rfl
      exact hno ⟨a, .inr hd⟩

/-- Settles O37: alone, memory changes only where an instruction executes, and there by one word of a `sw`. -/
theorem onlySwWritesMemory : Obligations.OnlySwWritesMemory := by
  intro s t a hn h hne
  obtain ⟨-, -, hc⟩ | ⟨d, hd, -⟩ | ⟨d, _, _, hd, -⟩ := step_cases h
  · obtain ⟨hmem, -⟩ | ⟨i, hd, hex⟩ := cycle_exec_or_idle hc
    · exact absurd (by rw [hmem]) hne
    · obtain hmem | ⟨rt, imm, rs, rfl, ha, hp, hmem⟩ := (exec_writes hex).mem
      · exact absurd (by rw [hmem, beginInstr_mem]) hne
      · rw [beginInstr_reg_eq_operand] at ha hp hmem
        refine ⟨rt, imm, rs, hd, hp, ?_⟩
        rw [← wordBase_aligned ha]
        by_contra hout
        exact hne (by rw [hmem, beginInstr_mem, readByte_memWrite_outside _ _ _ (by omega)])
  · rw [hn] at hd
    cases hd
  · rw [hn] at hd
    cases hd

/-! ## One step of the core alone (10_state.md R33) -/

/-- At an aligned `pc` the core alone executes the instruction there, after the common first phase. -/
theorem step_alone_exec {s : State} {i : Instr} (hs : s.RunsAlone) (ha : s.pc.toNat % 4 = 0)
    (hd : decode s.fetchWord = some i) : step s = exec i s.beginInstr :=
  (step_alone hs.1 hs.2).trans (cycle_exec ((aligned_iff _).mpr ha) hd)

/-- Settles O7: the state the instruction starts from is that of the common first phase. -/
theorem stepRunsDecodedInstruction : Obligations.StepRunsDecodedInstruction := fun s _ hs ha hd =>
  ⟨s.beginInstr, step_alone_exec hs ha hd, rfl, plus4_toNat s.pc, beginInstr_reg_zero s, fun _ hr => beginInstr_reg s hr,
    rfl, rfl, rfl, rfl, rfl, rfl, hs.2⟩

/-- Settles O10: the fault is taken before anything is written. -/
theorem misalignedFetchFaults : Obligations.MisalignedFetchFaults := by
  intro s ⟨hr, hn⟩ hpc hs
  rw [step_alone hr hn]
  exact cycle_misaligned hs (Bool.eq_false_iff.mpr (mt (aligned_iff _).mp hpc))

/-- Settles O30: the next `pc` is aligned and not the output port, so the store is a word of memory there. -/
theorem storeIsFetchedNext : Obligations.StoreIsFetchedNext := by
  intro s t imm b hs hwf hpc hd hea hport
  have ha : aligned (s.pc + 4#32) = true := by
    rw [← plus4_eq_add, aligned_plus4]
    exact (aligned_iff _).mpr hpc
  rw [← beginInstr_reg_eq_operand] at hea
  have hex := exec_sw_memory (t := t) (hea ▸ ha) (hea ▸ hport)
  rw [hea] at hex
  refine ⟨_, (step_alone_exec hs hpc hd).trans hex, hs.1, plus4_eq_add s.pc, ?_⟩
  rw [← beginInstr_reg_eq_operand, ← plus4_eq_add]
  exact memRead_memWrite_same _ _ (rising_of_wf hwf)

/-- The common first phase forgets what register 0 held. -/
theorem beginInstr_setReg_zero (s : State) (v : Word) : (s.setReg 0 v).beginInstr = s.beginInstr :=
  setReg_setReg_same { s with cur := s.pc, pc := plus4 s.pc } 0 v 0#32

/-- Settles O43: a step that fetches starts with the common first phase. -/
theorem registerZeroIsNeverRead : Obligations.RegisterZeroIsNeverRead := by
  intro s v ⟨hr, hn⟩ hpc
  have ha : aligned s.pc = true := (aligned_iff _).mpr hpc
  rw [step_alone (s := s.setReg 0 v) hr hn, step_alone hr hn]
  cases hd : decode s.fetchWord with
  | none =>
    rw [cycle_undecodable ha hd, ← beginInstr_setReg_zero s v]
    exact cycle_undecodable ha hd
  | some i =>
    rw [cycle_exec ha hd, ← beginInstr_setReg_zero s v]
    exact cycle_exec ha hd

/-! ## One step under a running debugger (60_exceptions.md R222) -/

/-- The breakpoint check at an aligned `pc`. -/
theorem stopsAt_eq_true_iff {d : Debugger} {pc : Word} (ha : aligned pc = true) :
    d.stopsAt pc = true ↔ (wordIndex pc ∈ d.breakpoints ∨ d.tempBreak = some (wordIndex pc)) ∧ d.resumeFlag = false := by
  simp [Debugger.stopsAt, ha]

theorem withDebugger_of_eq_some {s : State} {d : Debugger} (h : s.debugger = some d) (f : Debugger → Debugger) :
    s.withDebugger f = { s with debugger := some (f d) } := by
  rw [State.withDebugger, h, Option.map_some]

/-- Settles O49: the check comes before the fetch, and the step ends in the pause. -/
theorem breakpointPausesBeforeFetch : Obligations.BreakpointPausesBeforeFetch := by
  intro s d ⟨hr, hd, hm⟩ hpc hflag hbreak
  have ha : aligned s.pc = true := (aligned_iff _).mpr hpc
  rw [step_under hr hd hm, coreMove, if_pos ⟨ne_sentinel_of_aligned ha, (stopsAt_eq_true_iff ha).mpr ⟨hbreak, hflag⟩⟩,
    State.pause, withDebugger_of_eq_some hd, Debugger.pause]

/-- Settles O8: the check lets the core pass, and its cycle executes the instruction. -/
theorem debuggedStepRunsDecodedInstruction : Obligations.DebuggedStepRunsDecodedInstruction := by
  intro s d i ⟨hr, hd, hm⟩ hpc hdec hgo
  have ha : aligned s.pc = true := (aligned_iff _).mpr hpc
  have hstop : ¬ d.stopsAt s.pc = true := by
    rw [stopsAt_eq_true_iff ha]
    rintro ⟨hbreak, hflag⟩
    obtain hset | ⟨hno, hnt⟩ := hgo
    · simp [hflag] at hset
    · exact hbreak.elim hno hnt
  have hpass : s.passBreakpoint = { s with debugger := some { d with resumeFlag := false } } := by
    rw [State.passBreakpoint, if_neg (ne_sentinel_of_aligned ha), withDebugger_of_eq_some hd]
  have hcycle : cycle { s with debugger := some { d with resumeFlag := false } } =
      exec i { s.beginInstr with debugger := some { d with resumeFlag := false } } := cycle_exec ha hdec
  rw [step_under hr hd hm, coreMove, if_neg fun h => hstop h.2, hpass, hcycle]
  rfl

end Sys2Proof.Proofs.SessionFamily

/-! # The Breakpoint Set (60_exceptions.md R225)

A set is canonical when its indices rise and lie below 2^30. Adding, removing and toggling an index keep the indices rising,
and two rising lists with the same members are one list. -/

namespace Sys2Proof.Proofs.BreakpointSet
open Sys2Proof Sys2Proof.Machine Sys2Proof.Proofs.ExceptionsFamily

/-! ## The canonical form -/

theorem breakpointsOk_iff (b : List Nat) : breakpointsOk b = true ↔ (∀ j ∈ b, j < 2 ^ 30) ∧ b.Pairwise (· < ·) := by
  induction b with
  | nil => simp [breakpointsOk]
  | cons k rest ih =>
    simp only [breakpointsOk, Bool.and_eq_true, decide_eq_true_eq, List.all_eq_true, ih, List.mem_cons, forall_eq_or_imp,
      List.pairwise_cons]
    tauto

theorem pairwise_addBreakpoint (k : Nat) {b : List Nat} (h : b.Pairwise (· < ·)) :
    (addBreakpoint k b).Pairwise (· < ·) := by
  induction b with
  | nil => simp [addBreakpoint]
  | cons j rest ih =>
    obtain ⟨hj, hrest⟩ := List.pairwise_cons.mp h
    rw [addBreakpoint]
    split_ifs with hlt heq
    · refine List.pairwise_cons.mpr ⟨fun x hx => ?_, h⟩
      obtain rfl | hx := List.mem_cons.mp hx
      · exact hlt
      · exact hlt.trans (hj x hx)
    · exact h
    · refine List.pairwise_cons.mpr ⟨fun x hx => ?_, ih hrest⟩
      obtain rfl | hx := (mem_addBreakpoint x k rest).mp hx
      · omega
      · exact hj x hx

theorem breakpointsOk_addBreakpoint {k : Nat} {b : List Nat} (hk : k < 2 ^ 30) (h : breakpointsOk b = true) :
    breakpointsOk (addBreakpoint k b) = true := by
  obtain ⟨hlt, hpw⟩ := (breakpointsOk_iff b).mp h
  refine (breakpointsOk_iff _).mpr ⟨fun j hj => ?_, pairwise_addBreakpoint k hpw⟩
  obtain rfl | hj := (mem_addBreakpoint j k b).mp hj
  · exact hk
  · exact hlt j hj

theorem breakpointsOk_addBreakpoints {ks b : List Nat} (hks : ∀ k ∈ ks, k < 2 ^ 30) (h : breakpointsOk b = true) :
    breakpointsOk (addBreakpoints ks b) = true := by
  induction ks with
  | nil => exact h
  | cons k ks ih =>
    exact breakpointsOk_addBreakpoint (hks k List.mem_cons_self) (ih fun j hj => hks j (List.mem_cons_of_mem k hj))

@[simp] theorem mem_removeBreakpoint (j k : Nat) (b : List Nat) : j ∈ removeBreakpoint k b ↔ j ∈ b ∧ j ≠ k := by
  simp [removeBreakpoint]

/-! ## Toggling -/

theorem toggleBreakpoint_of_mem {k : Nat} {b : List Nat} (h : k ∈ b) : toggleBreakpoint k b = removeBreakpoint k b :=
  if_pos (List.contains_iff_mem.mpr h)

theorem toggleBreakpoint_of_not_mem {k : Nat} {b : List Nat} (h : k ∉ b) : toggleBreakpoint k b = addBreakpoint k b :=
  if_neg (mt List.contains_iff_mem.mp h)

/-- A toggle flips the membership of its index and of no other. -/
theorem mem_toggleBreakpoint (j k : Nat) (b : List Nat) :
    j ∈ toggleBreakpoint k b ↔ (j = k ∧ k ∉ b) ∨ (j ≠ k ∧ j ∈ b) := by
  by_cases h : k ∈ b
  · rw [toggleBreakpoint_of_mem h, mem_removeBreakpoint]
    tauto
  · rw [toggleBreakpoint_of_not_mem h, mem_addBreakpoint]
    by_cases hj : j = k
    · simp [hj, h]
    · simp [hj]

theorem pairwise_toggleBreakpoint (k : Nat) {b : List Nat} (h : b.Pairwise (· < ·)) :
    (toggleBreakpoint k b).Pairwise (· < ·) := by
  rw [toggleBreakpoint]
  split
  exacts [h.filter _, pairwise_addBreakpoint k h]

theorem breakpointsOk_toggleBreakpoint {k : Nat} {b : List Nat} (hk : k < 2 ^ 30) (h : breakpointsOk b = true) :
    breakpointsOk (toggleBreakpoint k b) = true := by
  obtain ⟨hlt, hpw⟩ := (breakpointsOk_iff b).mp h
  refine (breakpointsOk_iff _).mpr ⟨fun j hj => ?_, pairwise_toggleBreakpoint k hpw⟩
  obtain ⟨rfl, -⟩ | ⟨-, hj⟩ := (mem_toggleBreakpoint j k b).mp hj
  · exact hk
  · exact hlt j hj

/-- Settles O50: two toggles flip each membership twice or not at all, and rising lists with the same indices are equal. -/
theorem toggleTwiceRestores : Obligations.ToggleTwiceRestores := by
  intro k b h
  obtain ⟨-, hpw⟩ := (breakpointsOk_iff b).mp h
  refine ⟨?_, by simp [mem_toggleBreakpoint], fun j hj => by simp [mem_toggleBreakpoint, hj]⟩
  refine (pairwise_toggleBreakpoint k (pairwise_toggleBreakpoint k hpw)).eq_of_mem_iff hpw fun j => ?_
  by_cases hj : j = k
  · simp [mem_toggleBreakpoint, hj]
  · simp [mem_toggleBreakpoint, hj]

end Sys2Proof.Proofs.BreakpointSet

/-! # Words at successive addresses (20_memory.md R53, 70_reset_and_hazards.md R241, 60_exceptions.md R227)

An image and the entries of a `write` command go to successive words of memory: each reads back, and no other byte
changes. -/

namespace Sys2Proof.Proofs.SuccessiveWords
open Sys2Proof Sys2Proof.Machine Sys2Proof.Laws Sys2Proof.Proofs.LoadStoreFamily Sys2Proof.Proofs.InputAndMemory

theorem wf_loadWords {m : Memory} (a : Word) (ws : List Word) (h : m.wf = true) : (loadWords m a ws).wf = true := by
  induction ws generalizing m a with
  | nil => exact h
  | cons w rest ih => exact ih (plus4 a) (wf_memWrite a w h)

/-- Below the top of the address space the next word has the next index. -/
theorem wordIndex_plus4 {a : Word} (h : wordIndex a + 1 < 2 ^ 30) : wordIndex (plus4 a) = wordIndex a + 1 := by
  simp only [wordIndex, plus4_toNat] at h ⊢
  omega

/-- Where the words after the first fit, they fit from the next word on. -/
theorem fits_plus4 {a : Word} {n : Nat} (h : wordIndex a + (n + 1) ≤ 2 ^ 30) : wordIndex (plus4 a) + n ≤ 2 ^ 30 := by
  cases n with
  | zero => exact (wordIndex_lt _).le
  | succ n =>
    rw [wordIndex_plus4 (by omega)]
    omega

/-- The bytes outside the words written. -/
theorem readByte_loadWords_outside {m : Memory} {a : Word} {ws : List Word} (hfit : wordIndex a + ws.length ≤ 2 ^ 30)
    {x : Nat} (hx : x < wordBase a ∨ wordBase a + 4 * ws.length ≤ x) :
    (loadWords m a ws).readByte x = m.readByte x := by
  induction ws generalizing m a with
  | nil => rfl
  | cons w rest ih =>
    rw [List.length_cons] at hfit hx
    have hnext : x < wordBase (plus4 a) ∨ wordBase (plus4 a) + 4 * rest.length ≤ x := by
      cases rest with
      | nil => exact Nat.lt_or_ge x _
      | cons _ _ =>
        simp only [wordBase, List.length_cons] at hfit hx ⊢
        rw [wordIndex_plus4 (by omega)]
        omega
    calc (loadWords (memWrite m a w) (plus4 a) rest).readByte x
      _ = (memWrite m a w).readByte x := ih (fits_plus4 hfit) hnext
      _ = m.readByte x := readByte_memWrite_outside m a w (by omega)

/-- The words written from the next word on leave the word before. -/
theorem memRead_loadWords_plus4 {m : Memory} {a : Word} {ws : List Word} (hfit : wordIndex a + (ws.length + 1) ≤ 2 ^ 30) :
    memRead (loadWords m (plus4 a) ws) a = memRead m a := by
  cases ws with
  | nil => rfl
  | cons w rest =>
    refine memRead_congr fun x _ hhi => readByte_loadWords_outside (fits_plus4 hfit) (.inl ?_)
    simp only [wordBase, List.length_cons] at hfit hhi ⊢
    rw [wordIndex_plus4 (by omega)]
    omega

/-- Each word written reads back. -/
theorem memRead_loadWords {m : Memory} {a b : Word} {ws : List Word} (hwf : m.wf = true)
    (hfit : wordIndex a + ws.length ≤ 2 ^ 30) {k : Nat} {w : Word} (hk : ws[k]? = some w)
    (hb : wordIndex b = wordIndex a + k) : memRead (loadWords m a ws) b = w := by
  induction ws generalizing m a k with
  | nil => cases hk
  | cons v rest ih =>
    rw [List.length_cons] at hfit
    cases k with
    | zero =>
      obtain rfl : v = w := Option.some.inj hk
      rw [loadWords, memRead_eq_of_wordIndex_eq _ hb, memRead_loadWords_plus4 hfit,
        memRead_memWrite_same a v (rising_of_wf hwf)]
    | succ k =>
      rw [List.getElem?_cons_succ] at hk
      have hlt : k < rest.length := (List.getElem?_eq_some_iff.mp hk).1
      refine ih (wf_memWrite a v hwf) (fits_plus4 hfit) hk ?_
      rw [wordIndex_plus4 (by omega), hb]
      omega

end Sys2Proof.Proofs.SuccessiveWords

/-! # The debugger's commands (60_exceptions.md R225 to R228)

A paused debugger takes its next command off the list and applies it (`step_command`, `step_apply`); what each command
then does is `Command.apply`. -/

namespace Sys2Proof.Proofs.CommandFamily
open Sys2Proof Sys2Proof.Machine Sys2Proof.Laws Sys2Proof.Proofs.EncodingInverse Sys2Proof.Proofs.SuccessiveWords
  Sys2Proof.Proofs.SessionFamily

/-! ## Reading a command -/

/-- The state with its next command read. -/
def commandRead (s : State) (d : Debugger) (rest : List Command) : State :=
  { s with debugger := some { d with commands := rest } }

/-- A paused debugger reads its next command and runs it. -/
theorem step_command {s : State} {d : Debugger} {c : Command} {rest : List Command} (h : s.ReadsCommand d c rest) :
    step s = runCommand c (commandRead s d rest) := by
  obtain ⟨hd, hm, hc⟩ := h
  rw [step_paused hd hm, commandMove, hc]
  exact congrArg (runCommand c) (withDebugger_of_eq_some hd _)

/-- A command other than `step-into` is applied. -/
theorem step_apply {s : State} {d : Debugger} {c : Command} {rest : List Command} (h : s.ReadsCommand d c rest)
    (hc : c ≠ .stepInto) : step s = .next (c.apply (commandRead s d rest)) := by
  rw [step_command h, runCommand, if_neg fun hi => hc hi.1]

/-! ## Execution commands (60_exceptions.md R225) -/

theorem stepOverIndex_lis {s : State} {r : Reg} (h : decode s.fetchWord = some (.lis r)) :
    s.stepOverIndex = (s.pc + 8#32).toNat / 4 := by
  have hword : norm32 (unsigned s.pc + 4 * 2) = s.pc + 8#32 := by
    rw [norm32, unsigned, BitVec.ofInt_add, BitVec.ofInt_natCast, BitVec.ofNat_toNat, BitVec.setWidth_eq]
    rfl
  simp only [State.stepOverIndex, h, Instr.lengthWords, wordIndex]
  exact congrArg (fun w : Word => w.toNat / 4) hword

theorem stepOverIndex_other {s : State} (h : ¬ ∃ r, decode s.fetchWord = some (.lis r)) :
    s.stepOverIndex = (s.pc + 4#32).toNat / 4 := by
  rw [← plus4_eq_add, State.stepOverIndex]
  cases hd : decode s.fetchWord with
  | none => rfl
  | some i =>
    have hi : ∀ r, i ≠ .lis r := fun r e => h ⟨r, by rw [hd, e]⟩
    simp only [lengthWords_eq_one hi]
    rfl

theorem apply_stepOver {s : State} (h : s.status = .running) (d : Debugger) (rest : List Command) :
    Command.stepOver.apply (commandRead s d rest) =
      { s with debugger := some (Debugger.goOn { d with commands := rest, tempBreak := some s.stepOverIndex }) } :=
  if_pos h

theorem apply_resume {s : State} (h : s.status = .running) (d : Debugger) (rest : List Command) :
    Command.resume.apply (commandRead s d rest) =
      { s with debugger := some (Debugger.goOn { d with commands := rest }) } :=
  if_pos h

/-- Settles O51: two commands let the core move; `step-into` is the core's own cycle, which does not see the debugger. -/
theorem executionCommandsMoveTheCore : Obligations.ExecutionCommandsMoveTheCore := by
  intro s d rest hr
  refine ⟨fun h _ => ?stepOver, fun h => ?resume, fun u h hu => ?stepInto⟩
  case stepOver =>
    refine ⟨_, (step_apply h nofun).trans (congrArg _ (apply_stepOver hr d rest)), rfl, rfl, rfl, rfl, rfl, ?_, ?_⟩
    · rintro ⟨r, hl⟩
      exact congrArg some (stepOverIndex_lis hl)
    · exact fun hl => congrArg some (stepOverIndex_other hl)
  case resume => exact (step_apply h nofun).trans (congrArg _ (apply_resume hr d rest))
  case stepInto =>
    have hc : cycle s.core = .next u := (step_alone (s := s.core) hr rfl).symm.trans hu
    have hunder : cycle (commandRead s d rest) = .next { u with debugger := some { d with commands := rest } } := by
      have h := cycle_under s.core (some { d with commands := rest })
      rwa [hc] at h
    rw [step_command h, runCommand, if_pos ⟨rfl, hr⟩, hunder]
    rfl

/-! ## The register command (60_exceptions.md R226) -/

theorem reg?_eq_none {n : Int} (h : n < 0 ∨ 31 < n) : (Arg.num n).reg? = none :=
  if_neg (by omega)

theorem apply_patchRegister_refused {reg value : Arg} (h : reg.reg? = none ∨ value.value? = none) (s : State) :
    (Command.patchRegister reg value).apply s = s := by
  simp only [Command.apply]
  split
  · next hr hv => simp [hr, hv] at h
  · rfl

/-- Settles O52: one register write, or none. -/
theorem registerCommandPatches : Obligations.RegisterCommandPatches := by
  intro s d reg value rest h
  refine ⟨?_, fun hno => ?_⟩
  · rintro r v rfl rfl
    refine ⟨_, (step_apply h nofun).trans (congrArg _ (apply_patchRegister (reg?_num r) (value?_num v) _)),
      reg_setReg_same _ r _, fun _ hq => reg_setReg_other _ _ (List.ne_of_not_mem_cons hq), ⟨rfl, rfl⟩, rfl, ⟨rfl, rfl⟩,
      rfl, rfl, rfl, rfl⟩
  · refine (step_apply h nofun).trans (congrArg _ (apply_patchRegister_refused ?_ _))
    obtain ⟨n, rfl, hn⟩ | rfl | rfl := hno
    · exact .inl (reg?_eq_none hn)
    · exact .inl rfl
    · exact .inr rfl

/-! ## The write command (60_exceptions.md R227) -/

/-- The entries go to memory as an image's words do, and nowhere else. -/
theorem writeEntries_eq (s : State) (a : Word) (vs : List Int) :
    s.writeEntries a vs = { s with mem := loadWords s.mem a (vs.map norm32) } := by
  induction vs generalizing s a with
  | nil => rfl
  | cons v vs ih => exact ih _ _

/-- Settles O53: the entries are words at successive addresses. -/
theorem writeCommandPatches : Obligations.WriteCommandPatches := by
  intro s d a vs rest hwf h hfit
  have hwords : wordIndex a + (vs.map norm32).length ≤ 2 ^ 30 := by
    rw [List.length_map, wordIndex]
    omega
  have hstep := (step_apply h nofun).trans (congrArg _ (apply_patchMemory (address?_num a) vs _))
  rw [writeEntries_eq] at hstep
  refine ⟨_, hstep, fun k v hk => ?_, fun x hx => ?_, fun _ _ => rfl, ⟨rfl, rfl⟩, ⟨rfl, rfl⟩, rfl, rfl, rfl, rfl⟩
  · have hlt : k < vs.length := (List.getElem?_eq_some_iff.mp hk).1
    refine memRead_loadWords hwf hwords (k := k) (by rw [List.getElem?_map, hk]; rfl) ?_
    rw [wordIndex, wordIndex, BitVec.toNat_ofNat]
    omega
  · refine readByte_loadWords_outside hwords ?_
    rwa [List.length_map]

/-! ## The other commands (60_exceptions.md R228) -/

/-- After `quit` nothing steps. -/
theorem step_ended {s : State} {d : Debugger} (hd : s.debugger = some d) (hm : d.mode = .ended) :
    step s = .fault .sessionEnded := by
  simp [step, sessionStep, hd, hm]

theorem address?_eq_none {n : Int} (h : n < 0 ∨ 2 ^ 32 ≤ n) : (Arg.num n).address? = none :=
  if_neg (by omega)

theorem apply_toggleBreak_refused {arg : Arg} (h : arg.address? = none) (s : State) :
    (Command.toggleBreak (some arg)).apply s = s := by
  simp only [Command.apply, h]

/-- Settles O54: each command applied. -/
theorem otherCommandsLeaveTheCore : Obligations.OtherCommandsLeaveTheCore := by
  intro s d c rest h
  refine ⟨?_, ?_, ?_⟩
  · rintro rfl
    refine ⟨_, step_apply h nofun, rfl, fun u hu => ?_⟩
    rw [step_ended (d := { d with commands := rest, mode := .ended }) rfl rfl] at hu
    cases hu
  · rintro rfl
    exact step_apply h nofun
  · rintro (rfl | rfl | ⟨a, b, rfl⟩ | rfl | ⟨n, rfl, hn⟩ | ⟨vs, rfl⟩)
    · exact step_apply h nofun
    · exact step_apply h nofun
    · exact step_apply h nofun
    · exact step_apply h nofun
    · exact (step_apply h nofun).trans (congrArg _ (apply_toggleBreak_refused (address?_eq_none hn) _))
    · exact step_apply h nofun

end Sys2Proof.Proofs.CommandFamily

/-! # Images and the session's start (70_reset_and_hazards.md)

An image read from bytes or hex digits is its big-endian words, and a launch puts them in memory at the load offset of a
machine that has been reset. -/

namespace Sys2Proof.Proofs.LaunchFamily
open Sys2Proof Sys2Proof.Machine Sys2Proof.Laws Sys2Proof.Proofs.ExceptionsFamily Sys2Proof.Proofs.SuccessiveWords

/-! ## Binary images (70_reset_and_hazards.md R241) -/

theorem length_flatMap_bytesOfWord (ws : List Word) : (ws.flatMap bytesOfWord).length = 4 * ws.length := by
  simp [List.length_flatMap, bytesOfWord, mul_comm]

theorem wordsOfBytes_flatMap_bytesOfWord (ws : List Word) : wordsOfBytes (ws.flatMap bytesOfWord) = ws := by
  induction ws with
  | nil => rfl
  | cons w rest ih =>
    rw [List.flatMap_cons]
    exact congrArg₂ List.cons (wordOfBytes_bytes w) ih

theorem binaryImage_flatMap_bytesOfWord (ws : List Word) : binaryImage (ws.flatMap bytesOfWord) = .ok ws := by
  have hlen : binaryLengthOk (ws.flatMap bytesOfWord) = true := by
    rw [binaryLengthOk, length_flatMap_bytesOfWord, Nat.mul_mod_right, beq_self_eq_true]
  rw [binaryImage, if_pos hlen, wordsOfBytes_flatMap_bytesOfWord]

theorem binaryImage_badLength {bytes : List Byte} (h : bytes.length % 4 ≠ 0) : binaryImage bytes = .error .badLength := by
  simp [binaryImage, binaryLengthOk, h]

/-! ## Hex images (70_reset_and_hazards.md R241, R242) -/

/-- A digit written is a hex digit and reads back. -/
theorem hexDigit_reads (v : BitVec 4) : isHexDigit (hexDigit v) = true ∧ hexValue (hexDigit v) = v := by
  revert v
  decide

/-- The two halves of a byte are the byte. -/
theorem nibbles_append (b : Byte) : b.extractLsb' 4 4 ++ b.extractLsb' 0 4 = b := by
  rw [BitVec.extractLsb'_append_extractLsb'_eq_extractLsb' (by decide)]
  exact BitVec.extractLsb'_eq_self

theorem bytesOfHex_flatMap_hexOfByte (bs : List Byte) : bytesOfHex (bs.flatMap hexOfByte) = bs := by
  induction bs with
  | nil => rfl
  | cons b rest ih =>
    have hb : hexValue (hexDigit (b.extractLsb' 4 4)) ++ hexValue (hexDigit (b.extractLsb' 0 4)) = b := by
      rw [(hexDigit_reads _).2, (hexDigit_reads _).2, nibbles_append]
    rw [List.flatMap_cons]
    exact congrArg₂ List.cons hb ih

theorem flatMap_hexOfWord (ws : List Word) : ws.flatMap hexOfWord = (ws.flatMap bytesOfWord).flatMap hexOfByte :=
  (List.flatMap_assoc ..).symm

theorem hexDigitsOk_flatMap_hexOfByte (bs : List Byte) : hexDigitsOk (bs.flatMap hexOfByte) = true := by
  simp [hexDigitsOk, hexOfByte, hexDigit_reads]

theorem length_flatMap_hexOfByte (bs : List Byte) : (bs.flatMap hexOfByte).length = 2 * bs.length := by
  simp [List.length_flatMap, hexOfByte, mul_comm]

theorem hexImage_flatMap_hexOfWord (ws : List Word) : hexImage (ws.flatMap hexOfWord) = .ok ws := by
  have hlen : hexLengthOk ((ws.flatMap bytesOfWord).flatMap hexOfByte) = true := by
    rw [hexLengthOk, length_flatMap_hexOfByte, length_flatMap_bytesOfWord, beq_iff_eq]
    omega
  rw [flatMap_hexOfWord, hexImage, if_pos (hexDigitsOk_flatMap_hexOfByte _), if_pos hlen, bytesOfHex_flatMap_hexOfByte,
    wordsOfBytes_flatMap_bytesOfWord]

theorem hexImage_refuses {digits : List Char} (h : digits.length % 8 ≠ 0 ∨ ∃ c ∈ digits, isHexDigit c = false) :
    ∃ e, hexImage digits = .error e := by
  rw [hexImage]
  split
  · next hok =>
    have hlen : digits.length % 8 ≠ 0 := by
      refine h.resolve_right fun ⟨c, hc, hbad⟩ => ?_
      exact absurd (List.all_eq_true.mp hok c hc) (by simp [hbad])
    exact ⟨.badLength, if_neg (by simpa [hexLengthOk] using hlen)⟩
  · exact ⟨.notHexDigit, rfl⟩

/-- Settles O57: each reader inverts the words' bytes or digits, and its checks refuse the other inputs. -/
theorem imagesAreBigEndianWords : Obligations.ImagesAreBigEndianWords :=
  ⟨fun ws => ⟨binaryImage_flatMap_bytesOfWord ws, hexImage_flatMap_hexOfWord ws⟩, fun _ => binaryImage_badLength,
    fun _ => hexImage_refuses⟩

/-! ## Which launches start a session (70_reset_and_hazards.md R242) -/

theorem launch_ok {l : Launch} (ha : l.loadOffset.toNat % 4 = 0)
    (hfit : l.loadOffset.toNat + 4 * l.image.length ≤ 2 ^ 32) : launch l = .ok (startState l) := by
  simp only [launch, loadOffsetOk, imageFits, ha, hfit, beq_self_eq_true, decide_true, if_true]

theorem launch_refuses {l : Launch}
    (h : l.loadOffset.toNat % 4 ≠ 0 ∨ 2 ^ 32 < l.loadOffset.toNat + 4 * l.image.length) : ∃ e, launch l = .error e := by
  rw [launch]
  split_ifs with ha hfit
  · simp only [loadOffsetOk, imageFits, beq_iff_eq, decide_eq_true_eq] at ha hfit
    omega
  · exact ⟨_, rfl⟩
  · exact ⟨_, rfl⟩

/-- What a launch that starts a session has checked. -/
theorem checked_of_launch {l : Launch} {s : State} (h : launch l = .ok s) :
    l.loadOffset.toNat % 4 = 0 ∧ l.loadOffset.toNat + 4 * l.image.length ≤ 2 ^ 32 := by
  by_contra hno
  obtain ⟨e, he⟩ := launch_refuses (l := l) (by omega)
  rw [he] at h
  cases h

/-! ## The state a session starts in (70_reset_and_hazards.md R240, R241) -/

/-- Initial registers change registers alone. -/
theorem initRegs_eq (s : State) (init : List (Reg × Int)) : s.initRegs init = { s with regs := (s.initRegs init).regs } := by
  induction init generalizing s with
  | nil => rfl
  | cons p rest ih => exact ih (s.setReg p.1 (norm32 p.2))

/-- Each register holds the last value given for it, or what it held. -/
theorem initRegs_reg (s : State) (init : List (Reg × Int)) (r : Reg) :
    (s.initRegs init).reg r = ((init.reverse.find? fun p => p.1 == r).map fun p => norm32 p.2).getD (s.reg r) := by
  induction init generalizing s with
  | nil => rfl
  | cons p rest ih =>
    have hcons : s.initRegs (p :: rest) = (s.setReg p.1 (norm32 p.2)).initRegs rest := rfl
    rw [hcons, ih, List.reverse_cons, List.find?_append, reg_setReg]
    cases rest.reverse.find? fun p => p.1 == r with
    | some q => rfl
    | none =>
      by_cases hr : r = p.1
      · simp [hr]
      · simp [hr, Ne.symm hr]

/-- The registers at reset. -/
theorem reset_reg (r : Reg) : State.reset.reg r = if r = 31 then 0xFFFFFFFF#32 else 0#32 := by
  revert r
  decide

/-- The state a session starts in, but for the registers and the debugger. -/
theorem startState_frame (l : Launch) :
    (startState l).hi = 0#32 ∧ (startState l).lo = 0#32 ∧ (startState l).pc = l.loadOffset ∧ (startState l).cur = 0#32 ∧
      (startState l).out = [] ∧ (startState l).status = .running ∧ (startState l).input = l.input ∧
      (startState l).mem = loadWords [] l.loadOffset l.image := by
  simp only [startState]
  rw [initRegs_eq]
  exact ⟨rfl, rfl, rfl, rfl, rfl, rfl, rfl, rfl⟩

theorem startState_reg (l : Launch) (r : Reg) :
    (startState l).reg r = ((l.initRegs.reverse.find? fun p => p.1 == r).map fun p => norm32 p.2).getD (State.reset.reg r) :=
  initRegs_reg _ l.initRegs r

/-- Settles O55: the session starts in `startState`, with the image's words in an empty memory. -/
theorem launchGivesResetState : Obligations.LaunchGivesResetState := by
  intro l s h
  obtain ⟨ha, hfit⟩ := checked_of_launch h
  have hwords : wordIndex l.loadOffset + l.image.length ≤ 2 ^ 30 := by
    rw [wordIndex]
    omega
  obtain rfl := eq_startState_of_launch h
  obtain ⟨hhi, hlo, hpc, -, hout, hstatus, hinput, hmem⟩ := startState_frame l
  refine ⟨fun r => ?_, hhi, hlo, hpc, hout, hstatus, hinput, fun k w hk => ?_, fun x hx => ?_⟩
  · rw [startState_reg, reset_reg]
    cases l.initRegs.reverse.find? fun p => p.1 == r <;> rfl
  · have hlt : k < l.image.length := (List.getElem?_eq_some_iff.mp hk).1
    rw [hmem]
    refine memRead_loadWords wf_nil hwords hk ?_
    rw [wordIndex, wordIndex, BitVec.toNat_ofNat]
    omega
  · rw [hmem, readByte_loadWords_outside hwords]
    · rfl
    · rwa [wordBase_aligned ((aligned_iff _).mpr ha)]

end Sys2Proof.Proofs.LaunchFamily

/-! # The invariants of the machine

The machine's invariant is one of the core and one of the debugger (`inv_iff`), each kept by what a step does to that
half. Register 0 is 0 at the sentinel because only the two jumps lead there, and neither writes register 0. -/

namespace Sys2Proof.Proofs.InvariantFamily
open Sys2Proof Sys2Proof.Machine Sys2Proof.Laws Sys2Proof.Proofs.ExecPhase
  Sys2Proof.Proofs.ExceptionsFamily Sys2Proof.Proofs.ExecWrites Sys2Proof.Proofs.SessionFamily
  Sys2Proof.Proofs.BreakpointSet Sys2Proof.Proofs.SuccessiveWords Sys2Proof.Proofs.CommandFamily
  Sys2Proof.Proofs.LaunchFamily

/-! ## The two halves of the invariant -/

/-- The invariant's half of the core. -/
structure CoreInv (s : State) : Prop where
  memory : s.mem.wf = true
  current : aligned s.cur = true
  ended : s.status = .terminated → s.pc = Config.sentinel
  fault : ∀ r, s.status = .faulted r → r.Fits s

/-- The invariant's half of a debugger: its breakpoints are a set of word indices, and the temporary one is an index. -/
structure DebuggerInv (d : Debugger) : Prop where
  breakpoints : breakpointsOk d.breakpoints = true
  tempBreak : ∀ k, d.tempBreak = some k → k < 2 ^ 30

/-- The debugger's half in a session, which may have none. -/
def SessionInv (s : State) : Prop := ∀ d, s.debugger = some d → DebuggerInv d

theorem inv_iff (s : State) : s.Inv ↔ CoreInv s ∧ SessionInv s := by
  constructor
  · rintro ⟨hmem, hcur, hended, hfault, hbreak, htemp⟩
    exact ⟨⟨hmem, hcur, hended, hfault⟩, fun d hd => ⟨hbreak d hd, fun k => htemp d k hd⟩⟩
  · rintro ⟨⟨hmem, hcur, hended, hfault⟩, hdbg⟩
    exact ⟨hmem, hcur, hended, hfault, fun d hd => (hdbg d hd).breakpoints, fun d k hd => (hdbg d hd).tempBreak k⟩

/-! ## The core's half -/

/-- A fault record speaks of the Current Offset and `pc` alone. -/
theorem fits_of_eq {r : FaultRecord} {s t : State} (hcur : t.cur = s.cur) (hpc : t.pc = s.pc) (h : r.Fits s) :
    r.Fits t := by
  cases r with
  | alignment kind a i => cases kind <;> simpa only [FaultRecord.Fits, hcur, hpc] using h
  | _ => simpa only [FaultRecord.Fits, hcur, hpc] using h

/-- A state with canonical memory and the rest of what the core's half speaks of unchanged. -/
theorem CoreInv.of_eq {s t : State} (hs : CoreInv s) (hmem : t.mem.wf = true) (hcur : t.cur = s.cur)
    (hstatus : t.status = s.status) (hpc : t.pc = s.pc) : CoreInv t where
  memory := hmem
  current := hcur ▸ hs.current
  ended h := hpc ▸ hs.ended (hstatus ▸ h)
  fault r h := fits_of_eq hcur hpc (hs.fault r (hstatus ▸ h))

/-- A running core has no end and no fault to account for. -/
theorem coreInv_of_running {s : State} (hr : s.status = .running) (hmem : s.mem.wf = true) (hcur : aligned s.cur = true) :
    CoreInv s := ⟨hmem, hcur, by simp [hr], by simp [hr]⟩

/-- A core that takes a fault whose record fits the state it is taken in. -/
theorem coreInv_takeFault {s : State} {f : FaultRecord} (hmem : s.mem.wf = true) (hcur : aligned s.cur = true)
    (hf : f.Fits s) : CoreInv (s.takeFault f) where
  memory := hmem
  current := hcur
  ended := nofun
  fault _ h := by
    cases h
    exact fits_of_eq rfl rfl hf

/-- The record of a fault an instruction raises fits the state, `pc` being one word past the instruction. -/
theorem ExecFault.fits {s : State} {i : Instr} {f : FaultRecord} (h : ExecFault s i f) (hpc : s.pc = plus4 s.cur) :
    f.Fits s := by
  cases h with
  | div _ => exact ⟨rfl, hpc⟩
  | divu _ => exact ⟨rfl, hpc⟩
  | load ha => exact ⟨rfl, ha, hpc⟩
  | input _ hr => exact ⟨rfl, hr, hpc⟩
  | store ha => exact ⟨rfl, ha, hpc⟩

/-- An execute phase keeps memory canonical. -/
theorem wf_of_exec {i : Instr} {s t : State} (h : exec i s = .next t) (hmem : s.mem.wf = true) : t.mem.wf = true := by
  obtain e | ⟨_, _, _, -, -, -, e⟩ := (exec_writes h).mem
  · rwa [e]
  · rw [e]
    exact wf_memWrite _ _ hmem

theorem coreInv_cycle {s t : State} (hr : s.status = .running) (hs : CoreInv s) (h : cycle s = .next t) : CoreInv t := by
  obtain ⟨hmem, hcur, -, -⟩ := hs
  obtain ⟨hpc, e⟩ | ⟨hpc, ha, e⟩ | ⟨ha, hd, e⟩ | ⟨i, ha, -, e⟩ := cycle_cases s <;> rw [e] at h
  · cases h
    exact ⟨hmem, hcur, fun _ => hpc, nofun⟩
  · cases h
    exact coreInv_takeFault hmem hcur ⟨rfl, rfl, ha, hpc⟩
  · cases h
    exact coreInv_takeFault (s := s.beginInstr) hmem ha ⟨rfl, hd, rfl⟩
  · obtain hc | ⟨f, rest, hf, rfl⟩ := exec_cases h
    · exact coreInv_of_running (hc.status.trans hr) (wf_of_exec h hmem) (hc.cur ▸ ha)
    · exact coreInv_takeFault (s := { s.beginInstr with input := rest }) hmem ha
        (fits_of_eq (s := s.beginInstr) rfl rfl (ExecFault.fits hf rfl))

theorem CoreInv.patch {s t : State} {c : Command} (hs : CoreInv s) (h : Patch s c t) : CoreInv t := by
  cases h with
  | register r v => exact hs.of_eq hs.memory rfl rfl rfl
  | memory a vs =>
    rw [writeEntries_eq]
    exact hs.of_eq (wf_loadWords a _ hs.memory) rfl rfl rfl

theorem coreInv_core_iff (s : State) : CoreInv s.core ↔ CoreInv s :=
  ⟨fun h => h.of_eq h.memory rfl rfl rfl, fun h => h.of_eq h.memory rfl rfl rfl⟩

/-- A step of any session keeps the core's half. -/
theorem coreInv_step {s t : State} (hs : CoreInv s) (h : step s = .next t) : CoreInv t := by
  rw [← coreInv_core_iff] at hs ⊢
  obtain hsame | ⟨hr, hc⟩ | ⟨_, _, _, -, -, -, hpatch⟩ := step_core_cases h
  · rwa [hsame]
  · exact coreInv_cycle (s := s.core) hr hs hc
  · exact hs.patch hpatch

/-! ## The debugger's half -/

theorem sessionInv_of_eq {s t : State} (h : t.debugger = s.debugger) (hs : SessionInv s) : SessionInv t :=
  fun d hd => hs d (h ▸ hd)

theorem sessionInv_withDebugger {s : State} {f : Debugger → Debugger} (hf : ∀ d, DebuggerInv d → DebuggerInv (f d))
    (hs : SessionInv s) : SessionInv (s.withDebugger f) := by
  intro d hd
  rw [withDebugger_debugger, Option.map_eq_some_iff] at hd
  obtain ⟨e, he, rfl⟩ := hd
  exact hf e (hs e he)

/-- The core's cycle leaves the debugger. -/
theorem cycle_debugger {s t : State} (h : cycle s = .next t) : t.debugger = s.debugger := by
  obtain ⟨-, e⟩ | ⟨-, -, e⟩ | ⟨-, -, e⟩ | ⟨i, -, -, e⟩ := cycle_cases s <;> rw [e] at h
  · cases h
    rfl
  · cases h
    rfl
  · cases h
    rfl
  · obtain hc | ⟨_, _, -, rfl⟩ := exec_cases h
    · exact hc.debugger
    · rfl

theorem DebuggerInv.pause {d : Debugger} (h : DebuggerInv d) : DebuggerInv d.pause := ⟨h.breakpoints, nofun⟩

theorem sessionInv_pause {s : State} (hs : SessionInv s) : SessionInv s.pause :=
  sessionInv_withDebugger (fun _ hd => hd.pause) hs

theorem sessionInv_pauseIfEnded {s : State} (hs : SessionInv s) : SessionInv (pauseIfEnded s) := by
  rw [pauseIfEnded]
  split
  exacts [hs, sessionInv_pause hs]

theorem sessionInv_passBreakpoint {s : State} (hs : SessionInv s) : SessionInv s.passBreakpoint := by
  rw [State.passBreakpoint]
  split
  · exact hs
  · exact sessionInv_withDebugger (fun _ hd => ⟨hd.breakpoints, hd.tempBreak⟩) hs

theorem stepOverIndex_lt (s : State) : s.stepOverIndex < 2 ^ 30 := by
  rw [State.stepOverIndex]
  split <;> exact wordIndex_lt _

theorem sessionInv_toggleBreakAt {s : State} (a : Word) (hs : SessionInv s) : SessionInv (s.toggleBreakAt a) :=
  sessionInv_withDebugger
    (fun _ hd => ⟨breakpointsOk_toggleBreakpoint (wordIndex_lt a) hd.breakpoints, hd.tempBreak⟩) hs

/-- A command that runs no instruction keeps the debugger's half. -/
theorem sessionInv_apply (c : Command) {s : State} (hs : SessionInv s) : SessionInv (c.apply s) := by
  cases c with
  | resume =>
    simp only [Command.apply]
    split
    · exact sessionInv_withDebugger (fun _ hd => ⟨hd.breakpoints, hd.tempBreak⟩) hs
    · exact hs
  | stepOver =>
    simp only [Command.apply]
    split
    · refine sessionInv_withDebugger (fun _ hd => ⟨hd.breakpoints, fun k hk => ?_⟩) hs
      cases hk
      exact stepOverIndex_lt s
    · exact hs
  | toggleBreak arg =>
    cases arg with
    | none => exact sessionInv_toggleBreakAt s.pc hs
    | some arg =>
      simp only [Command.apply]
      split
      exacts [sessionInv_toggleBreakAt _ hs, hs]
  | patchRegister reg value =>
    simp only [Command.apply]
    split
    exacts [sessionInv_of_eq rfl hs, hs]
  | patchMemory start entries =>
    simp only [Command.apply]
    split
    · rw [writeEntries_eq]
      exact sessionInv_of_eq rfl hs
    · exact hs
  | toggleTrace | quit => exact sessionInv_withDebugger (fun _ hd => ⟨hd.breakpoints, hd.tempBreak⟩) hs
  | stepInto | print | help | unrecognized => exact hs

/-- A step of any session keeps the debugger's half. -/
theorem sessionInv_step {s t : State} (hs : SessionInv s) (h : step s = .next t) : SessionInv t := by
  obtain ⟨-, -, hc⟩ | ⟨d, -, -, -, hmove⟩ | ⟨d, c, rest, -, -, -, hrun⟩ := step_cases h
  · exact sessionInv_of_eq (cycle_debugger hc) hs
  · obtain ⟨-, -, rfl⟩ | ⟨u, hu, rfl⟩ := coreMove_cases hmove
    · exact sessionInv_pause hs
    · exact sessionInv_pauseIfEnded (sessionInv_of_eq (cycle_debugger hu) (sessionInv_passBreakpoint hs))
  · have hread : SessionInv (s.withDebugger fun d => { d with commands := rest }) :=
      sessionInv_withDebugger (fun _ hd => ⟨hd.breakpoints, hd.tempBreak⟩) hs
    obtain ⟨-, -, u, hu, rfl⟩ | ⟨-, rfl⟩ := runCommand_cases hrun
    · exact sessionInv_pause (sessionInv_of_eq (cycle_debugger hu) hread)
    · exact sessionInv_apply c hread

/-- Settles O45: a step keeps each half. -/
theorem stepKeepsInvariant : Obligations.StepKeepsInvariant := by
  intro s t hs h
  obtain ⟨hcore, hsession⟩ := (inv_iff s).mp hs
  exact (inv_iff t).mpr ⟨coreInv_step hcore h, sessionInv_step hsession h⟩

/-! ## Where a session starts -/

/-- Settles O46: the reset core is running, with empty memory and no debugger. -/
theorem resetHasInvariant : Obligations.ResetHasInvariant :=
  (inv_iff _).mpr ⟨coreInv_of_running rfl wf_nil rfl, nofun⟩

theorem softBreakpoints_lt {k : Nat} {image : List Word} (h : k + image.length ≤ 2 ^ 30) :
    ∀ j ∈ softBreakpoints k image, j < 2 ^ 30 := by
  intro j hj
  obtain ⟨i, hi, rfl⟩ := (mem_softBreakpoints j k image).mp hj
  have := (List.getElem?_eq_some_iff.mp hi).1
  omega

/-- The debugger at session start, for an image that fits below the top of the address space. -/
theorem debuggerInv_startDebugger {image : List Word} {loadOffset : Word}
    (hfit : wordIndex loadOffset + image.length ≤ 2 ^ 30) (o : DebugOptions) :
    DebuggerInv (startDebugger image loadOffset o) where
  breakpoints := by
    refine breakpointsOk_addBreakpoints (softBreakpoints_lt hfit) (breakpointsOk_addBreakpoints (fun k hk => ?_) rfl)
    obtain ⟨a, -, rfl⟩ := List.mem_map.mp hk
    exact wordIndex_lt a
  tempBreak := nofun

theorem inv_startState {l : Launch} (hfit : wordIndex l.loadOffset + l.image.length ≤ 2 ^ 30) : (startState l).Inv := by
  obtain ⟨-, -, -, hcur, -, hstatus, -, hmem⟩ := startState_frame l
  refine (inv_iff _).mpr ⟨coreInv_of_running hstatus ?_ (by rw [hcur]; rfl), fun d hd => ?_⟩
  · rw [hmem]
    exact wf_loadWords _ _ wf_nil
  · rw [startState_debugger, Option.map_eq_some_iff] at hd
    obtain ⟨o, -, rfl⟩ := hd
    exact debuggerInv_startDebugger hfit o

/-- Settles O56: the checks are the two refusals, and past them the start state meets both halves of the invariant. -/
theorem launchStartsWellFormedSessions : Obligations.LaunchStartsWellFormedSessions := by
  refine fun l => ⟨launch_refuses, fun ha hfit => ⟨startState l, launch_ok ha hfit, inv_startState ?_⟩⟩
  rw [wordIndex]
  omega

/-! ## Register 0 at the end of a run (10_state.md R23 (c)) -/

/-- Neither of the two jumps writes register 0, and no other instruction leads from an aligned `pc` to the sentinel. -/
theorem reg_zero_of_exec_to_sentinel {i : Instr} {s t : State} (h : exec i s = .next t) (ha : aligned s.pc = true)
    (hpc : t.pc = Config.sentinel) : t.reg 0 = s.reg 0 := by
  refine (exec_writes h).regs 0 fun hdest => ?_
  have hjump : ∀ a, i ≠ .jr a ∧ i ≠ .jalr a := by
    refine fun a => ⟨?_, ?_⟩
    · rintro rfl
      exact absurd hdest (by simp [Instr.dest?])
    · rintro rfl
      exact absurd hdest (by simp [Instr.dest?])
  exact ne_sentinel_of_aligned (aligned_nextPc ha hjump) ((exec_pc h).symm.trans hpc)

theorem zeroAtEnd_cycle {s t : State} (hr : s.status = .running) (hs : s.ZeroAtEnd) (h : cycle s = .next t) :
    t.ZeroAtEnd := by
  obtain ⟨hpc, e⟩ | ⟨hpc, -, e⟩ | ⟨-, -, e⟩ | ⟨i, ha, -, e⟩ := cycle_cases s <;> rw [e] at h
  · cases h
    exact fun _ => hs (.inl hpc)
  · cases h
    exact fun hend => hs (.inl (hend.resolve_right nofun))
  · cases h
    exact fun _ => beginInstr_reg_zero s
  · obtain hc | ⟨f, rest, -, rfl⟩ := exec_cases h
    · intro hend
      have hnot : t.status ≠ .terminated := by simp [hc.status, hr]
      rw [reg_zero_of_exec_to_sentinel h ((aligned_plus4 s.pc).trans ha) (hend.resolve_right hnot), beginInstr_reg_zero]
    · exact fun _ => beginInstr_reg_zero s

/-- Alone, a step keeps register 0 at 0 at the end of a run. -/
theorem zeroAtEnd_step {s t : State} (hs : s.debugger = none ∧ s.ZeroAtEnd) (h : step s = .next t) :
    t.debugger = none ∧ t.ZeroAtEnd := by
  obtain ⟨hn, hz⟩ := hs
  obtain ⟨-, hr, hc⟩ | ⟨d, hd, -⟩ | ⟨d, _, _, hd, -⟩ := step_cases h
  · exact ⟨(cycle_debugger hc).trans hn, zeroAtEnd_cycle hr hz hc⟩
  · exact absurd (hn.symm.trans hd) nofun
  · exact absurd (hn.symm.trans hd) nofun

/-- A session starts running at an aligned load offset. -/
theorem zeroAtEnd_of_launch {l : Launch} {s : State} (h : launch l = .ok s) : s.ZeroAtEnd := by
  have ha : aligned l.loadOffset = true := (aligned_iff _).mpr (checked_of_launch h).1
  obtain rfl := eq_startState_of_launch h
  obtain ⟨-, -, hpc, -, -, hstatus, -, -⟩ := startState_frame l
  rintro (hend | hend)
  · exact absurd (hpc.symm.trans hend) (ne_sentinel_of_aligned ha)
  · rw [hstatus] at hend
    cases hend

/-- Settles O60: the only ways to the sentinel leave register 0 as the common first phase set it. -/
theorem stepKeepsZeroAtEnd : Obligations.StepKeepsZeroAtEnd :=
  ⟨fun _ _ hn hz h => zeroAtEnd_step ⟨hn, hz⟩ h, fun _ _ h => zeroAtEnd_of_launch h⟩

/-- What every step keeps holds of every state reached. -/
theorem Reaches.keeps {P : State → Prop} (hstep : ∀ s t, P s → step s = .next t → P t) {s t : State} (h : Reaches s t)
    (hs : P s) : P t := by
  induction h with
  | refl => exact hs
  | next _ hu ih => exact hstep _ _ ih hu

/-- Settles O44: by what every step keeps, from the start of the session. -/
theorem registerZeroIsZeroAtTermination : Obligations.RegisterZeroIsZeroAtTermination := by
  intro l s t hdbg hl hreach hend
  have hn : s.debugger = none := by
    rw [eq_startState_of_launch hl, startState_debugger, hdbg, Option.map_none]
  obtain ⟨-, hz⟩ := Reaches.keeps (P := fun u => u.debugger = none ∧ u.ZeroAtEnd) (fun _ _ => zeroAtEnd_step) hreach
    ⟨hn, zeroAtEnd_of_launch hl⟩
  exact hz (.inr hend)

end Sys2Proof.Proofs.InvariantFamily
